-- ==== Sys2Proof/Word.lean ====
section
/-! DEFINITION. The value types of the block: 32-bit words, bytes, 16-bit chunks and 8-bit word indices
(spec/00_scope.md R3, R5; spec/20_memory.md R50, R52). All arithmetic on them is that of `BitVec`, which
wraps modulo the width (R6). -/

namespace Sys2Proof

/-- A `u32`: every register and array element of the engine (R5). -/
abbrev Word := BitVec 32

/-- A `u8` (R5): one octet of a bag, of an output string or of an entropy read. -/
abbrev Byte := BitVec 8

/-- A `u16` (R5): the middle chunk of a byte tail (R57). -/
abbrev Half := BitVec 16

/-- An index into `mem` or `rsl`: 0..255, eight bits (R50, R52). Index arithmetic is modulo 256. -/
abbrev Index := BitVec 8

end Sys2Proof
end

