-- ==== Sys2Proof/Machine/Bytes.lean ====
section
/-! DEFINITION. Byte order: the byte helpers of spec/00_scope.md R10 and the packing of byte strings into port words
(spec/20_memory.md R53 to R56, spec/30_encoding.md R74). -/

namespace Sys2Proof.Machine

/-- `le32(v)`: the four bytes of a word, least significant first (R10, R54). -/
def le32 (v : Word) : List Byte :=
  [v.extractLsb' 0 8, v.extractLsb' 8 8, v.extractLsb' 16 8, v.extractLsb' 24 8]

/-- `le16(v)`: the two bytes of a 16-bit chunk, least significant first (R10, R54). -/
def le16 (v : Half) : List Byte :=
  [v.extractLsb' 0 8, v.extractLsb' 8 8]

/-- `u32le(b0, b1, b2, b3)` (R10). -/
def u32le (b0 b1 b2 b3 : Byte) : Word :=
  b0.setWidth 32 ||| (b1.setWidth 32 <<< 8) ||| (b2.setWidth 32 <<< 16) ||| (b3.setWidth 32 <<< 24)

/-- `u32be(b0, b1, b2, b3)` (R10). -/
def u32be (b0 b1 b2 b3 : Byte) : Word :=
  (b0.setWidth 32 <<< 24) ||| (b1.setWidth 32 <<< 16) ||| (b2.setWidth 32 <<< 8) ||| b3.setWidth 32

/-- A byte string in words: byte `p` is bits `8(p mod 4)+7 : 8(p mod 4)` of word `p / 4`, and the unused high bytes
of the last word are 0 (R56, R74). -/
def packBytes : List Byte → List Word
  | [] => []
  | [b0] => [u32le b0 0 0 0]
  | [b0, b1] => [u32le b0 b1 0 0]
  | [b0, b1, b2] => [u32le b0 b1 b2 0]
  | b0 :: b1 :: b2 :: b3 :: rest => u32le b0 b1 b2 b3 :: packBytes rest

/-- All bytes of a sequence of port words, four a word, least significant first (R56). -/
def unpackWords (ws : List Word) : List Byte :=
  ws.flatMap le32

/-- Seed words of an entropy read: word `w` is `u32le(B[4w], B[4w+1], B[4w+2], B[4w+3])` (R53, R151). A read has a
multiple of four bytes (R173), so no word is padded. -/
def seedWordsOfBytes (bytes : List Byte) : List Word :=
  packBytes bytes

/-- The four-byte big-endian count of an EGD reply, when all four bytes have arrived (R55, R156). -/
def egdCount : List Byte → Option Word
  | r0 :: r1 :: r2 :: r3 :: _ => some (u32be r0 r1 r2 r3)
  | _ => none

end Sys2Proof.Machine
end

