-- ==== Sys2Proof/Config.lean ====
section
/-! DEFINITION. What the spec leaves OPEN (spec/00_scope.md section 4, spec/92_eei_decisions.md D10, D21, D22,
D25): the types of the open parameters, which stand in `State` as plain data so that a statement about every
state holds for every value of them, and the one free value of the model, the environment's unlisted replies. -/

namespace Sys2Proof

/-- `TAIL_MODE` (R4, R176, D10): whether the two chunks of a 3-byte tail come from one word or from two. -/
inductive TailMode where
  | shared
  | separate
deriving DecidableEq, Repr

/-- The four EGD sockets `EGD_PATHS` (spec/00_scope.md section 4, R142, R156). -/
inductive EgdPath where
  /-- `/var/run/egd-pool` -/
  | varRunEgdPool
  /-- `/dev/egd-pool` -/
  | devEgdPool
  /-- `/etc/egd-pool` -/
  | etcEgdPool
  /-- `/etc/entropy` -/
  | etcEntropy
deriving DecidableEq, Repr

/-- The platform parameters of D22: which entropy sources exist (R142, R143, R146, R147, R156). -/
structure Platform where
  /-- `OS_API_AVAILABLE` (R146). -/
  osApiAvailable : Bool
  /-- `EGD_SOCKETS`: which of the four paths answer (R156). A path not listed fails to connect. -/
  egdSockets : List EgdPath
  /-- `NB_DEVICE_PATH`: the non-blocking device that can be opened read-only, or absent (R147). -/
  nbDevicePath : Option String
  /-- `B_DEVICE_PATH`: the blocking device that can be opened read-only, or absent (R147). -/
  bDevicePath : Option String
  /-- `BLOCKING_DEV_IS_NONBLOCKING`, default false (R142, R143). -/
  blockingDevIsNonblocking : Bool
deriving DecidableEq, Repr

/-- The environment's answer to one request of the entropy provider (R150, R152, R153, R156, R157).
How many of the bytes a request takes is said by the operation that makes it. -/
inductive Reply where
  /-- The request succeeded and these bytes arrived, possibly fewer than were asked for. -/
  | ok (bytes : List Byte)
  /-- An error indicator, a failed open, connect or send, no answer, or the EGD timeout (R158, D25). -/
  | failed
deriving DecidableEq, Repr, Inhabited

/-- FREE VALUE (R150, I17 to I19; notes/assumptions/5.md): the environment's reply to request number `n` when no
reply is listed in the state. It has no body: the bytes and the failures of the oracle follow no law. -/
opaque Config.freeReply (n : Nat) : Reply

end Sys2Proof
end

