-- ==== Sys2Proof/Machine/State.lean ====
section
/-! DEFINITION. The state of the block and of its ports, as plain data (spec/10_state.md), the state after power-on
reset (R34, R240), and the reasons a step can stop. INVENTORY.md, section State, lists every field. -/

namespace Sys2Proof.Machine

/-- The `phase` register (R26). -/
inductive Phase where
  | unseeded
  | ready
deriving DecidableEq, Repr

/-- The mixing register file `s0..s7` (R11, R21). -/
structure MixRegs where
  s0 : Word
  s1 : Word
  s2 : Word
  s3 : Word
  s4 : Word
  s5 : Word
  s6 : Word
  s7 : Word
deriving DecidableEq, Repr

/-- One of the two internal memories, `MEM` or `RSL`: 256 words (R22, R23, R50). The length is part of the type, so
equal memories are equal data (notes/assumptions/2.md). -/
abbrev Memory := Vector Word 256

/-- The engine state `(ra, rb, rc, mem, rsl, cnt)` with the mixing registers (R20 to R24). -/
structure Engine where
  /-- Accumulator, the source's `a` (R20). -/
  ra : Word
  /-- Accumulator, the source's `b` (R20). -/
  rb : Word
  /-- Accumulator, the source's `c`: the count of refill rounds modulo 2^32 (R20, R124). -/
  rc : Word
  /-- `s0..s7` (R21). -/
  mix : MixRegs
  /-- The engine memory (R22). -/
  mem : Memory
  /-- The output buffer; the seed buffer during RANDINIT (R23). -/
  rsl : Memory
  /-- The output counter, an integer in 0..256 (R24). -/
  cnt : Fin 257
deriving DecidableEq, Repr

/-- One action of the entropy provider on the platform, as the platform sees it (R87, R152, R153, R156, R157, R159). -/
inductive Action where
  /-- One call of the OS cryptographic API for exactly this many bytes (R153). -/
  | osRequest (nbytes : Nat)
  /-- Opening a device read-only, and whether it opened (R147, R152). -/
  | openFile (path : String) (opened : Bool)
  /-- A read of at most this many bytes from the open device (R152). -/
  | readFile (nbytes : Nat)
  /-- Closing the device (R152, R159). -/
  | closeFile (path : String)
  /-- Connecting to an EGD socket, and whether it connected (R156). -/
  | connect (path : EgdPath) (connected : Bool)
  /-- Sending these request bytes and waiting for this many reply bytes (R87, R156, R157). -/
  | exchange (sent : List Byte) (expected : Nat)
  /-- Closing the socket (R159). -/
  | disconnect (path : EgdPath)
deriving DecidableEq, Repr

/-- The block's seed interface to the entropy provider (R2, R51, R150): the MODEL's own record of an external agent. -/
structure EntropyPort where
  /-- Replies the environment has ready, first to be taken first; when none is left the reply is free. -/
  replies : List Reply
  /-- How many replies have been taken, the index of the next free reply (`Config.freeReply`). -/
  taken : Nat
  /-- What the provider has done on the platform, oldest first. -/
  log : List Action
deriving DecidableEq, Repr

/-- The state of one block with its command, response and entropy ports. -/
structure State where
  /-- `ra`, `rb`, `rc`, `s0..s7`, `mem`, `rsl`, `cnt` (R20 to R24). -/
  engine : Engine
  /-- The phase register (R26). -/
  phase : Phase
  /-- `CFG_BITS`: the `bits` of the last successful CONSTRUCT (R27). -/
  cfgBits : Int
  /-- Words waiting on the command port, first to be read first (R51, R70). -/
  cmd : List Word
  /-- Words produced on the response port, oldest first (R51, R74). -/
  resp : List Word
  /-- `TAIL_MODE`, fixed per model (R4, R30). -/
  tailMode : TailMode
  /-- The open platform parameters, fixed per model (D22). -/
  platform : Platform
  /-- The seed interface (R51, R150). -/
  entropy : EntropyPort
deriving DecidableEq, Repr

/-- Every word of the memory is 0: the value this model gives an array whose contents the spec leaves unspecified
(notes/assumptions/1.md). -/
def zeroMemory : Memory :=
  Vector.replicate 256 0

/-- After power-on reset (R34, R240): `phase = UNSEEDED` and `CFG_BITS = 0` are the spec's; the engine's values,
which the spec leaves unspecified, are DESIGN CHOICE 0 (notes/assumptions/1.md); the parameters are the spec's
defaults where it gives one, DESIGN CHOICE otherwise (notes/assumptions/6.md); the ports are empty. -/
def State.reset : State where
  engine :=
    { ra := 0, rb := 0, rc := 0, mix := ⟨0, 0, 0, 0, 0, 0, 0, 0⟩,
      mem := zeroMemory, rsl := zeroMemory, cnt := 0 }
  phase := .unseeded
  cfgBits := 0
  cmd := []
  resp := []
  tailMode := .shared
  platform :=
    { osApiAvailable := true, egdSockets := [], nbDevicePath := none, bDevicePath := none,
      blockingDevIsNonblocking := false }
  entropy := { replies := [], taken := 0, log := [] }

/-- Why the block has no next state. -/
inductive Fault where
  /-- Raised by RANGED and STRFROM only, when the rejection loop of R193 or R196 never ends: the engine state repeats
  before any draw is accepted. The spec's treatment is `stuck` (R195, I15). SAFE: the hardware would run for ever. -/
  | rejectionNeverEnds
deriving DecidableEq, Repr

/-- Why the model gives no meaning. -/
inductive Refusal where
  /-- Raised by an arm of `exec` that has no meaning yet (there is none). SAFE: nothing is claimed of the run. -/
  | notModelled (mnemonic : String)
deriving DecidableEq, Repr

end Sys2Proof.Machine
end

