-- ==== Sys2Proof/Machine/Flags.lean ====
section
/-! DEFINITION. The block has no condition codes (spec/10_state.md R29): what stands in their place is the status code
of a response (spec/30_encoding.md R75) and the one flag a command reads or writes, `phase` (R26). -/

namespace Sys2Proof.Machine

/-- The status of a response: `OK` or the error that ended the command (R75, R211, R212). -/
inductive Status where
  | ok
  | invalidOption
  | noEntropySource
  | entropyReadError
  | emptyBag
  | rangeTooLarge
  | invalidSeed
  | illegalCommand
  | notSeeded
  | zeroRange
deriving DecidableEq, Repr

/-- The status code (R75). -/
def Status.code : Status → Byte
  | .ok => 0x00
  | .invalidOption => 0x01
  | .noEntropySource => 0x02
  | .entropyReadError => 0x03
  | .emptyBag => 0x04
  | .rangeTooLarge => 0x05
  | .invalidSeed => 0x06
  | .illegalCommand => 0x80
  | .notSeeded => 0x81
  | .zeroRange => 0x82

/-- The status word `RS`: the code in bits 7:0, zeros above (R74). -/
def Status.word (st : Status) : Word :=
  st.code.setWidth 32

/-- The flag a drawing command requires: `phase = READY` (R26, R213). -/
def State.isReady (s : State) : Bool :=
  match s.phase with
  | .ready => true
  | .unseeded => false

end Sys2Proof.Machine
end

