-- ==== Sys2Proof/Machine/Ops.lean ====
section
/-! DEFINITION. The shared operations over the two memories, the ports and the phase: reads and writes of `MEM` and
`RSL` (spec/00_scope.md R9, spec/20_memory.md R50, R59), the response of a command (spec/30_encoding.md R74), and
the raising of an error, which is this block's only exception mechanism (spec/60_exceptions.md R210, R215). -/

namespace Sys2Proof.Machine

/-- The memory has its 256 words (R25). The type says so too; equal memories are equal lists of words. -/
def Memory.wf (m : Memory) : Bool :=
  m.toList.length == 256

/-- `MemRead`: one 32-bit word (R9, R59). Every index is in 0..255, so no access is out of range (R52). -/
def Memory.read (m : Memory) (i : Index) : Word :=
  m[i.toNat]

/-- `MemWrite`: one 32-bit word (R9, R59). -/
def Memory.write (m : Memory) (i : Index) (v : Word) : Memory :=
  m.set i.toNat v

/-- The loop values `0, 1, ..., 255` (R8, R106, R121). -/
@[irreducible] def positions : List Index :=
  (List.range 256).map (BitVec.ofNat 8)

/-- The loop values `0, 8, ..., 248` (R8, R104). -/
@[irreducible] def groups : List Index :=
  (List.range 32).map fun g => BitVec.ofNat 8 (8 * g)

/-- The response of a command: the status word, then the payload words (R74). -/
def State.reply (s : State) (st : Status) (payload : List Word) : State :=
  { s with resp := s.resp ++ st.word :: payload }

/-- Raising an error, the one exception of the block (R210, R215): the command ends with the error's status and no
payload, and no other state changes. There is no handler and no return: the next command is executed normally
(R216). -/
def State.raise (s : State) (st : Status) : State :=
  s.reply st []

/-- The end of a command that cannot fail any more: the engine state it leaves, status `OK` and its payload. -/
def State.finish (s : State) (engine : Engine) (payload : List Word) : State :=
  { s with engine := engine }.reply .ok payload

/-- The check every drawing command makes first (R213, R214): `NotSeeded` in phase `UNSEEDED`, without drawing. -/
def State.whenReady (s : State) (k : Host.Outcome State Fault Refusal) : Host.Outcome State Fault Refusal :=
  if s.isReady then k else .next (s.raise .notSeeded)

end Sys2Proof.Machine
end

