-- ==== Sys2Proof/Machine/Engine.lean ====
section
/-! DEFINITION. The internal procedures of the engine: MIX and RANDINIT (spec/40_engine_init.md R100 to R105), the
refill round ISAAC (spec/41_engine_refill.md R120, R121) and DRAW (R126). Statements stand in the order of the
spec's pseudocode, and every right shift keeps the mask the spec writes (spec/00_scope.md R7). -/

namespace Sys2Proof.Machine

/-- `GOLDEN` (R100). -/
def golden : Word := 0x9E3779B9

/-- MIX, one line of the spec's pseudocode a line (R101). -/
@[irreducible] def MixRegs.stir (m : MixRegs) : MixRegs :=
  let ⟨s0, s1, s2, s3, s4, s5, s6, s7⟩ := m
  let s0 := s0 ^^^ (s1 <<< 11);                   let s3 := s3 + s0;  let s1 := s1 + s2
  let s1 := s1 ^^^ ((s2 >>> 2) &&& 0x3FFFFFFF);   let s4 := s4 + s1;  let s2 := s2 + s3
  let s2 := s2 ^^^ (s3 <<< 8);                    let s5 := s5 + s2;  let s3 := s3 + s4
  let s3 := s3 ^^^ ((s4 >>> 16) &&& 0x0000FFFF);  let s6 := s6 + s3;  let s4 := s4 + s5
  let s4 := s4 ^^^ (s5 <<< 10);                   let s7 := s7 + s4;  let s5 := s5 + s6
  let s5 := s5 ^^^ ((s6 >>> 4) &&& 0x0FFFFFFF);   let s0 := s0 + s5;  let s6 := s6 + s7
  let s6 := s6 ^^^ (s7 <<< 8);                    let s1 := s1 + s6;  let s7 := s7 + s0
  let s7 := s7 ^^^ ((s0 >>> 9) &&& 0x007FFFFF);   let s2 := s2 + s7;  let s0 := s0 + s1
  ⟨s0, s1, s2, s3, s4, s5, s6, s7⟩

/-- All eight mixing registers at `GOLDEN`, then MIX four times (R102). -/
@[irreducible] def MixRegs.setUp : MixRegs :=
  let m : MixRegs := ⟨golden, golden, golden, golden, golden, golden, golden, golden⟩
  m.stir.stir.stir.stir

/-- `for t in 0..7: s[t] <- s[t] + m[i + t]` (R104). -/
def MixRegs.addGroup (s : MixRegs) (m : Memory) (i : Index) : MixRegs :=
  { s0 := s.s0 + m.read i,       s1 := s.s1 + m.read (i + 1),
    s2 := s.s2 + m.read (i + 2), s3 := s.s3 + m.read (i + 3),
    s4 := s.s4 + m.read (i + 4), s5 := s.s5 + m.read (i + 5),
    s6 := s.s6 + m.read (i + 6), s7 := s.s7 + m.read (i + 7) }

/-- `for t in 0..7: m[i + t] <- s[t]` (R104). -/
def Memory.writeGroup (m : Memory) (i : Index) (s : MixRegs) : Memory :=
  let m := (m.write i s.s0).write (i + 1) s.s1
  let m := (m.write (i + 2) s.s2).write (i + 3) s.s3
  let m := (m.write (i + 4) s.s4).write (i + 5) s.s5
  (m.write (i + 6) s.s6).write (i + 7) s.s7

/-- One iteration of a RANDINIT pass: fold the eight words at `i` of `source` into the mixing registers, MIX, and
store the registers into `mem` at `i` (R104). -/
def Engine.foldGroup (e : Engine) (source : Memory) (i : Index) : Engine :=
  let s := (e.mix.addGroup source i).stir
  { e with mix := s, mem := e.mem.writeGroup i s }

/-- Pass 1 of RANDINIT: fold the seed, held in `rsl`, into `mem` (R104). -/
def Engine.passOne (e : Engine) : Engine :=
  groups.foldl (fun e i => e.foldGroup e.rsl i) e

/-- Pass 2 of RANDINIT: fold `mem` into itself (R104). -/
def Engine.passTwo (e : Engine) : Engine :=
  groups.foldl (fun e i => e.foldGroup e.mem i) e

/-- `BARREL(j, ra)` for `j = position mod 4` (R120). -/
def barrel (position : Index) (ra : Word) : Word :=
  match position.toNat % 4 with
  | 0 => ra ^^^ (ra <<< 13)
  | 1 => ra ^^^ ((ra >>> 6) &&& 0x03FFFFFF)
  | 2 => ra ^^^ (ra <<< 2)
  | _ => ra ^^^ ((ra >>> 16) &&& 0x0000FFFF)

/-- `(x >> 2) & 0xFF` (R121, step 4). -/
def stepFourIndex (x : Word) : Index :=
  ((x >>> 2) &&& 0xFF).setWidth 8

/-- `(y >> 10) & 0xFF` (R121, step 5). -/
def stepFiveIndex (y : Word) : Index :=
  ((y >>> 10) &&& 0xFF).setWidth 8

/-- The five steps of the refill round at position `p = i + j` (R121). `mem` is read as the round has left it so far:
step 4 before `mem[p]` is written, step 5 after (R122, R250). -/
def Engine.refillStep (e : Engine) (p : Index) : Engine :=
  let x := e.mem.read p
  let ra := barrel p e.ra
  let ra := ra + e.mem.read (p + 128)
  let y := e.mem.read (stepFourIndex x) + ra + e.rb
  let mem := e.mem.write p y
  let rb := mem.read (stepFiveIndex y) + x
  { e with ra := ra, rb := rb, mem := mem, rsl := e.rsl.write p rb }

/-- ISAAC, the refill round (R121). -/
@[irreducible] def Engine.isaac (e : Engine) : Engine :=
  let e := { e with rc := e.rc + 1 }
  let e := { e with rb := e.rb + e.rc }
  let e := positions.foldl Engine.refillStep e
  { e with cnt := 255 }

/-- RANDINIT (R102 to R105); the seed stands in `rsl`. -/
@[irreducible] def Engine.randinit (e : Engine) : Engine :=
  let e := { e with mix := MixRegs.setUp }
  let e := { e with ra := 0, rb := 0, rc := 0 }
  let e := e.passOne.passTwo.isaac
  { e with cnt := 256 }

/-- `for t in 0..255: rsl[t] <- (t < k) ? D[t] : 0` (R106). -/
def Engine.loadSeed (e : Engine) (seed : List Word) : Engine :=
  { e with rsl := positions.foldl (fun rsl t => rsl.write t (seed.getD t.toNat 0)) e.rsl }

/-- Seeding: the zero-padded seed into `rsl`, then RANDINIT (R106, R171). -/
def Engine.seeded (e : Engine) (seed : List Word) : Engine :=
  (e.loadSeed seed).randinit

/-- The counter update of DRAW: a refill round when the counter is 0, else one less (R126; C1, C2). -/
def Engine.advance (e : Engine) : Engine :=
  if e.cnt = 0 then e.isaac
  else { e with cnt := ⟨e.cnt.val - 1, Nat.lt_of_le_of_lt (Nat.sub_le _ _) e.cnt.isLt⟩ }

/-- DRAW: the word `rsl[cnt]` after the counter update (R126). The counter is then at most 255 (R52). -/
def Engine.draw (e : Engine) : Word × Engine :=
  let e := e.advance
  (e.rsl.read (BitVec.ofNat 8 e.cnt.val), e)

/-- `count` draws in order. -/
def Engine.drawMany : (count : Nat) → Engine → List Word × Engine
  | 0, e => ([], e)
  | count + 1, e =>
    let (v, e) := e.draw
    let (vs, e) := e.drawMany count
    (v :: vs, e)

end Sys2Proof.Machine
end

