-- ==== Sys2Proof/Machine/Operands.lean ====
section
/-! DEFINITION. The operand forms: how a command's operand words become the values its rule works on
(spec/30_encoding.md R77 to R82, spec/43_facade_output.md R170, R172, R173), and the host's own coercion of a
length before it is encoded (R174). Every operand but `bits` is unsigned (R82). -/

namespace Sys2Proof.Machine

/-- The default of an absent `bits` option (R170). -/
def bitsDefault : Int := 256

/-- The default of an absent `nonblocking` option (R170). -/
def nonblockingDefault : Bool := true

/-- The `bits` operand of CONSTRUCT: `ARG1` as 32-bit two's complement, or the default (R78, R170, R171). -/
def bitsOperand : Option Word → Int
  | none => bitsDefault
  | some arg1 => arg1.toInt

/-- The `nonblocking` operand of CONSTRUCT (R78, R170, R171). -/
def nonblockingOperand : Option Bool → Bool
  | none => nonblockingDefault
  | some v => v

/-- `VALID_BITS`: between 64 and 8192 and a power of two (R172). A number is a power of two when it has no bit in
common with its predecessor. -/
def validBits (bits : Int) : Bool :=
  decide (64 ≤ bits) && decide (bits ≤ 8192) && (bits.toNat &&& (bits.toNat - 1) == 0)

/-- The seed length in words, `bits / 32` (R173). -/
def seedWordCount (bits : Int) : Nat :=
  bits.toNat / 32

/-- The entropy bytes a CONSTRUCT reads, `4 * (bits / 32)` (R151, R173). -/
def seedByteCount (bits : Int) : Nat :=
  4 * seedWordCount bits

/-- The largest range RANGED takes: `2^32` (R193). -/
def maxRange : Nat := 2 ^ 32

/-- The host's coercion of an arbitrary number to a length operand: `floor(|n|)`, refused at `2^32` and above (R174,
D14). It is applied by the host to the `n` of BYTES, HEX and STRFROM and the `count` of RANGED. -/
def hostLength (n : Rat) : Option Word :=
  let m := n.num.natAbs / n.den
  if m < 2 ^ 32 then some (BitVec.ofNat 32 m) else none

end Sys2Proof.Machine
end

