-- ==== Sys2Proof/Machine/Output.lean ====
section
/-! DEFINITION. The drawing commands that always end: NEXT (spec/41_engine_refill.md R126), BYTES and HEX
(spec/43_facade_output.md R175, R176, R179; spec/30_encoding.md R88). -/

namespace Sys2Proof.Machine

/-- `TAIL(r)`: the bytes of a remainder `r = n mod 4` (R176, R57). -/
def Engine.tail (e : Engine) (mode : TailMode) (r : Nat) : List Byte × Engine :=
  if r = 0 then ([], e)
  else
    let (v, e) := e.draw
    let middle := if 2 ≤ r then le16 (((v >>> 8) &&& 0xFFFF).setWidth 16) else []
    if r % 2 = 1 then
      let (v, e) := if r = 3 ∧ mode = .separate then e.draw else (v, e)
      (middle ++ [(v &&& 0xFF).setWidth 8], e)
    else (middle, e)

/-- `EMIT_BYTES(n)`: four bytes a draw, then the tail (R175). -/
def Engine.emitBytes (e : Engine) (mode : TailMode) (n : Nat) : List Byte × Engine :=
  let (vs, e) := e.drawMany (n / 4)
  let (tail, e) := e.tail mode (n % 4)
  (vs.flatMap le32 ++ tail, e)

/-- The number of draws of `EMIT_BYTES(n)` (R177). -/
def byteDraws (mode : TailMode) (n : Nat) : Nat :=
  n / 4 + (if n % 4 ≠ 0 then 1 else 0) + (if n % 4 = 3 ∧ mode = .separate then 1 else 0)

/-- `DIGIT(v)` for a nibble `v`: the octet of a lowercase hex digit (R88). -/
def hexDigit (v : Byte) : Byte :=
  if v.toNat < 10 then 0x30 + v else 0x61 + (v - 10)

/-- The two digits of a byte, high nibble first (R179, D11). -/
def hexDigits (b : Byte) : List Byte :=
  [hexDigit (b >>> 4), hexDigit (b &&& 0xF)]

/-- NEXT (R126). -/
def execNext (s : State) : Host.Outcome State Fault Refusal :=
  s.whenReady (.next (
    let (v, e) := s.engine.draw
    s.finish e [v]))

/-- BYTES (R175). -/
def execBytes (n : Word) (s : State) : Host.Outcome State Fault Refusal :=
  s.whenReady (.next (
    let (bytes, e) := s.engine.emitBytes s.tailMode n.toNat
    s.finish e (packBytes bytes)))

/-- HEX (R179): the draws are those of BYTES. -/
def execHex (n : Word) (s : State) : Host.Outcome State Fault Refusal :=
  s.whenReady (.next (
    let (bytes, e) := s.engine.emitBytes s.tailMode n.toNat
    s.finish e (packBytes (bytes.flatMap hexDigits))))

end Sys2Proof.Machine
end

