-- ==== Sys2Proof/Machine/Sampling.lean ====
section
/-! DEFINITION. Unbiased ranged sampling: DIVISOR (spec/44_ranged_sampling.md R190), the rejection loop of R193 and
R196, RANGED and STRFROM. -/

namespace Sys2Proof.Machine

/-- The loop of DIVISOR (R190): at most `turns` turns, from exponent `n` and divisor `d`. -/
def divisorLoop (range : Nat) : (turns : Nat) → (n : Nat) → (d : Nat) → Nat
  | 0, _, d => d
  | turns + 1, n, d =>
    if n ≤ 32 ∧ d < range then divisorLoop range turns (n + 1) (2 ^ n) else d

/-- `DIVISOR(range)` (R190): `n` runs from 0 to 32, so 33 turns are enough. -/
def divisor (range : Nat) : Nat :=
  divisorLoop range 33 0 0

/-- How many values `(ra, rb, rc, mem, rsl, cnt)` can have: 3 + 256 + 256 words and 257 counters. A draw is a function
of these alone, so a loop that has not ended after so many draws never ends (notes/assumptions/3.md). -/
@[irreducible] def engineStates : Nat :=
  2 ^ (32 * (3 + 256 + 256)) * 257

/-- The rejection loop for one value: draw, reduce modulo `d`, until the result is below `range` (R193, R196); `none`
when `turns` draws are all rejected. -/
def Engine.sampleWithin (range d : Nat) : (turns : Nat) → Engine → Option (Nat × Engine)
  | 0, _ => none
  | turns + 1, e =>
    let (v, e) := e.draw
    let r := v.toNat % d
    if r < range then some (r, e) else e.sampleWithin range d turns

/-- One unbiased value below `range`; `none` exactly when the rejection loop never ends (R195). -/
def Engine.sample (range d : Nat) (e : Engine) : Option (Nat × Engine) :=
  e.sampleWithin range d engineStates

/-- `count` unbiased values below `range`, in order (R193). -/
def Engine.samples (range d : Nat) : (count : Nat) → Engine → Option (List Nat × Engine)
  | 0, e => some ([], e)
  | count + 1, e =>
    match e.sample range d with
    | none => none
    | some (r, e) =>
      match e.samples range d count with
      | none => none
      | some (rs, e) => some (r :: rs, e)

/-- The ranged-randoms procedure `(range, count)` (R193, R197). -/
def Engine.rangedRandoms (e : Engine) (range count : Nat) : Option (List Nat × Engine) :=
  e.samples range (divisor range) count

/-- The octet of a bag a sampled value selects, index 0 the first (R196, R197). A sampled value is below the bag's
length, so the default is never taken (R198). -/
def bagOctet (bag : List Byte) (r : Nat) : Byte :=
  bag.getD r 0

/-- RANGED (R193): every check is made before the first draw (R214). -/
def execRanged (range : BitVec 64) (count : Word) (s : State) : Host.Outcome State Fault Refusal :=
  s.whenReady (
    if range.toNat = 0 then .next (s.raise .zeroRange)
    else if maxRange < range.toNat then .next (s.raise .rangeTooLarge)
    else
      match s.engine.rangedRandoms range.toNat count.toNat with
      | none => .fault .rejectionNeverEnds
      | some (rs, e) => .next (s.finish e (rs.map (BitVec.ofNat 32))))

/-- STRFROM (R196): the values of RANGED for the bag's length, mapped through the bag (R197). -/
def execStrfrom (bag : List Byte) (n : Word) (s : State) : Host.Outcome State Fault Refusal :=
  s.whenReady (
    if bag.length = 0 then .next (s.raise .emptyBag)
    else
      match s.engine.rangedRandoms bag.length n.toNat with
      | none => .fault .rejectionNeverEnds
      | some (rs, e) => .next (s.finish e (packBytes (rs.map (bagOctet bag)))))

end Sys2Proof.Machine
end

