-- ==== Sys2Proof/Machine/Provider.lean ====
section
/-! DEFINITION. The entropy provider at the block's seed interface (spec/42_entropy_provider.md R140 to R159): the
selection of a source and the read of the seed bytes. The provider is an external agent; what it does on the
platform stands in the port's log, and what the platform answers is a listed or a free reply. -/

namespace Sys2Proof.Machine

/-- The environment's next reply: the first one listed, or the free value when none is (R150). -/
def EntropyPort.take (q : EntropyPort) : Reply × EntropyPort :=
  match q.replies with
  | [] => (Config.freeReply q.taken, { q with taken := q.taken + 1 })
  | r :: rs => (r, { q with replies := rs, taken := q.taken + 1 })

/-- Record an action of the provider. -/
def EntropyPort.note (q : EntropyPort) (a : Action) : EntropyPort :=
  { q with log := q.log ++ [a] }

/-- The four candidate sources (R142). -/
inductive Candidate where
  | osApi
  | egd
  | nbDevice
  | bDevice
deriving DecidableEq, Repr

/-- The candidates in priority order (R142, R144). -/
def candidates : List Candidate :=
  [.osApi, .egd, .nbDevice, .bDevice]

/-- The `blocking` classification (R142, R143). -/
def Candidate.blocking (p : Platform) : Candidate → Bool
  | .osApi => false
  | .egd => true
  | .nbDevice => false
  | .bDevice => !p.blockingDevIsNonblocking

/-- The `strong` classification (R142); no rule reads it (R148, D31). -/
def Candidate.strong : Candidate → Bool
  | .osApi => true
  | .egd => true
  | .nbDevice => false
  | .bDevice => true

/-- A selected source. -/
inductive Source where
  | osApi
  | egd (path : EgdPath)
  | nbDevice (path : String)
  | bDevice (path : String)
deriving DecidableEq, Repr

/-- The candidate a source was selected as. -/
def Source.candidate : Source → Candidate
  | .osApi => .osApi
  | .egd _ => .egd
  | .nbDevice _ => .nbDevice
  | .bDevice _ => .bDevice

/-- `EGD_PATHS` in the listed order (spec/00_scope.md section 4, R156). -/
def egdPaths : List EgdPath :=
  [.varRunEgdPool, .devEgdPool, .etcEgdPool, .etcEntropy]

/-- The path of an EGD socket. -/
def egdPathName : EgdPath → String
  | .varRunEgdPool => "/var/run/egd-pool"
  | .devEgdPool => "/dev/egd-pool"
  | .etcEgdPool => "/etc/egd-pool"
  | .etcEntropy => "/etc/entropy"

/-- The source's name, a property the selected provider exposes (R148); no rule reads it. DESIGN CHOICE
(notes/assumptions/16.md): R142 describes the candidates and gives no name string, so the name is the path of the socket
or device, and for candidate 1 the first words of its description. -/
def Source.name : Source → String
  | .osApi => "OS cryptographic API"
  | .egd path => egdPathName path
  | .nbDevice path => path
  | .bDevice path => path

/-- The bytes of a reply that must bring exactly `n`: fewer, or a failure, is an error (R150, R153, R155, R157). -/
def replyExactly (n : Nat) : Reply → Option (List Byte)
  | .ok bytes => if n ≤ bytes.length then some (bytes.take n) else none
  | .failed => none

/-- The bytes of a reply that may bring at most `n`; none is an error (R152). -/
def replyAtMost (n : Nat) : Reply → List Byte
  | .ok bytes => bytes.take n
  | .failed => []

/-- The request that asks an EGD daemon for its entropy count (R87). -/
def egdQuery : List Byte := [0x00]

/-- The request that reads `n` bytes from an EGD daemon (R87). -/
def egdRequest (n : Nat) : List Byte := [0x02, BitVec.ofNat 8 n]

/-- `EGD_CHUNK_MAX` (spec/00_scope.md section 4, R157). -/
def egdChunkMax : Nat := 255

/-- The probe of candidate 2 over a list of paths: the first path whose four reply bytes arrive in time is accepted,
whatever the count (R156). The socket is closed before the next path is tried (R159). -/
def probeEgd (p : Platform) : List EgdPath → EntropyPort → Option EgdPath × EntropyPort
  | [], q => (none, q)
  | path :: paths, q =>
    if path ∈ p.egdSockets then
      let (reply, q) := (q.note (.connect path true)).take
      let q := (q.note (.exchange egdQuery 4)).note (.disconnect path)
      match (replyExactly 4 reply).bind egdCount with
      | some _ => (some path, q)
      | none => probeEgd p paths q
    else probeEgd p paths (q.note (.connect path false))

/-- The probe of a device: it succeeds when the device opens read-only, and reads nothing (R147, R159). -/
def probeDevice (source : String → Source) : Option String → EntropyPort → Option Source × EntropyPort
  | none, q => (none, q)
  | some path, q => (some (source path), (q.note (.openFile path true)).note (.closeFile path))

/-- `PROBE` (R146, R147, R156). -/
def probe (p : Platform) (c : Candidate) (q : EntropyPort) : Option Source × EntropyPort :=
  match c with
  | .osApi => (if p.osApiAvailable then some .osApi else none, q)
  | .egd =>
    let (path, q) := probeEgd p egdPaths q
    (path.map .egd, q)
  | .nbDevice => probeDevice .nbDevice p.nbDevicePath q
  | .bDevice => probeDevice .bDevice p.bDevicePath q

/-- `SELECT` over a list of candidates: a blocking candidate is skipped without a probe under the nonblocking policy
(R143), and the first probe that succeeds wins (R144). -/
def selectFrom (p : Platform) (nonblocking : Bool) : List Candidate → EntropyPort → Option Source × EntropyPort
  | [], q => (none, q)
  | c :: cs, q =>
    if nonblocking && c.blocking p then selectFrom p nonblocking cs q
    else
      match probe p c q with
      | (some source, q) => (some source, q)
      | (none, q) => selectFrom p nonblocking cs q

/-- `SELECT(nonblocking)` (R144). -/
def selectSource (p : Platform) (nonblocking : Bool) (q : EntropyPort) : Option Source × EntropyPort :=
  selectFrom p nonblocking candidates q

/-- The read loop of an open device: reads until `need` bytes are collected; a read of 0 bytes or an error aborts
(R152). Every read brings at least one byte, so `need` turns are enough. -/
def fileLoop : (turns : Nat) → (need : Nat) → EntropyPort → Option (List Byte) × EntropyPort
  | 0, _, q => (some [], q)
  | turns + 1, need, q =>
    if need = 0 then (some [], q)
    else
      let (reply, q) := q.take
      let q := q.note (.readFile need)
      let bytes := replyAtMost need reply
      if bytes = [] then (none, q)
      else
        let (rest, q) := fileLoop turns (need - bytes.length) q
        (rest.map (bytes ++ ·), q)

/-- The file read protocol (R152): a failed open is a read error, and the device is closed on every path (R159). -/
def readFile (path : String) (nbytes : Nat) (q : EntropyPort) : Option (List Byte) × EntropyPort :=
  match q.take with
  | (.failed, q) => (none, q.note (.openFile path false))
  | (.ok _, q) =>
    let (bytes, q) := fileLoop nbytes nbytes (q.note (.openFile path true))
    (bytes, q.note (.closeFile path))

/-- The requests of an EGD read: `min(255, need)` bytes at a time (R157). Every request brings at least one byte, so
`need` turns are enough. -/
def egdLoop : (turns : Nat) → (need : Nat) → EntropyPort → Option (List Byte) × EntropyPort
  | 0, _, q => (some [], q)
  | turns + 1, need, q =>
    if need = 0 then (some [], q)
    else
      let chunk := min egdChunkMax need
      let (reply, q) := q.take
      let q := q.note (.exchange (egdRequest chunk) chunk)
      match replyExactly chunk reply with
      | none => (none, q)
      | some bytes =>
        let (rest, q) := egdLoop turns (need - chunk) q
        (rest.map (bytes ++ ·), q)

/-- The EGD read (R157). The probe has closed its socket (R159), so the read connects again; a failed connect is a
read error (R155, notes/assumptions/8.md). -/
def readEgd (path : EgdPath) (nbytes : Nat) (q : EntropyPort) : Option (List Byte) × EntropyPort :=
  match q.take with
  | (.failed, q) => (none, q.note (.connect path false))
  | (.ok _, q) =>
    let (bytes, q) := egdLoop nbytes nbytes (q.note (.connect path true))
    (bytes, q.note (.disconnect path))

/-- The OS API read: exactly `nbytes` bytes in one call (R153). -/
def readOsApi (nbytes : Nat) (q : EntropyPort) : Option (List Byte) × EntropyPort :=
  let (reply, q) := q.take
  (replyExactly nbytes reply, q.note (.osRequest nbytes))

/-- `EntropyRead(nbytes)` from the selected source by its read protocol; `none` is `EntropyReadError`, and no other
candidate is tried (R150, R155). -/
def entropyRead (source : Source) (nbytes : Nat) (q : EntropyPort) : Option (List Byte) × EntropyPort :=
  match source with
  | .osApi => readOsApi nbytes q
  | .egd path => readEgd path nbytes q
  | .nbDevice path => readFile path nbytes q
  | .bDevice path => readFile path nbytes q

/-- What the provider answers a CONSTRUCT: the seed words, or the error its rule names (R140, R141). -/
inductive Provided where
  | words (ws : List Word)
  | noSource
  | readError
deriving DecidableEq, Repr

/-- The provider's whole part in a CONSTRUCT: select a source, read `4n` bytes from it and decode them as `n`
little-endian words (R140, R144, R151). -/
def provide (p : Platform) (nonblocking : Bool) (nbytes : Nat) (q : EntropyPort) : Provided × EntropyPort :=
  match selectSource p nonblocking q with
  | (none, q) => (.noSource, q)
  | (some source, q) =>
    match entropyRead source nbytes q with
    | (none, q) => (.readError, q)
    | (some bytes, q) => (.words (seedWordsOfBytes bytes), q)

/-- An OS handle the provider can hold (R159). -/
inductive Handle where
  | file (path : String)
  | socket (path : EgdPath)
deriving DecidableEq, Repr

/-- The handles open after an action, given those open before it (R159). -/
def handlesAfter (held : List Handle) : Action → List Handle
  | .openFile path true => .file path :: held
  | .closeFile path => held.erase (.file path)
  | .connect path true => .socket path :: held
  | .disconnect path => held.erase (.socket path)
  | .osRequest _ => held
  | .openFile _ false => held
  | .readFile _ => held
  | .connect _ false => held
  | .exchange _ _ => held

/-- The handles still open after all the provider has done (R159). -/
def EntropyPort.heldHandles (q : EntropyPort) : List Handle :=
  q.log.foldl handlesAfter []

end Sys2Proof.Machine
end

