-- ==== Sys2Proof/Machine/Seeding.lean ====
section
/-! DEFINITION. The commands that seed the engine: SEED (spec/40_engine_init.md R106) and CONSTRUCT
(spec/43_facade_output.md R171). Both are legal in either phase and replace the whole engine state (D13). -/

namespace Sys2Proof.Machine

/-- The most seed words SEED takes (R106). -/
def seedWordsMax : Nat := 256

/-- SEED (R106): `InvalidSeed` above 256 words, before any state changes; else seed the engine and set the phase. -/
def execSeed (words : List Word) (s : State) : Host.Outcome State Fault Refusal :=
  .next (
    if seedWordsMax < words.length then s.raise .invalidSeed
    else { s with phase := .ready }.finish (s.engine.seeded words) [])

/-- What CONSTRUCT does with the provider's answer (R171): the block state is written only when the words are there,
and what the provider did outside the block stands in every case (R215). -/
def State.constructed (s : State) (bits : Int) : Provided × EntropyPort → State
  | (.noSource, q) => { s with entropy := q }.raise .noEntropySource
  | (.readError, q) => { s with entropy := q }.raise .entropyReadError
  | (.words ws, q) =>
    { s with entropy := q, cfgBits := bits, phase := .ready }.finish (s.engine.seeded ws) []

/-- CONSTRUCT (R171). The check of the option word's reserved bits is the decoder's (R73, R78). -/
def execConstruct (bits : Option Word) (nonblocking : Option Bool) (s : State) :
    Host.Outcome State Fault Refusal :=
  .next (
    let b := bitsOperand bits
    if validBits b then
      s.constructed b (provide s.platform (nonblockingOperand nonblocking) (seedByteCount b) s.entropy)
    else s.raise .invalidOption)

end Sys2Proof.Machine
end

