-- ==== Sys2Proof/Syntax.lean ====
section
/-! DEFINITION. The commands of the block: one constructor per row of spec/opcode_table.json, with the operands its
format carries (spec/30_encoding.md R70 to R81). -/

namespace Sys2Proof

/-- A command of `ISAAC-CMD-1` (R72). -/
inductive Instr where
  /-- `construct` (format C, R78, R171): the `bits` option as the 32 bits of `ARG1`, and the `nonblocking` option;
  `none` is an option that is not given. -/
  | construct (bits : Option Word) (nonblocking : Option Bool)
  /-- `seed` (format S, R79, R106): the seed words `D0..D(k-1)`; `k` is the list's length. -/
  | seed (words : List Word)
  /-- `next` (format N, R76, R126). -/
  | next
  /-- `bytes` (format L, R77, R175): the byte count. -/
  | bytes (n : Word)
  /-- `hex` (format L, R77, R179): the byte count; twice as many digits are returned. -/
  | hex (n : Word)
  /-- `strfrom` (format B, R81, R196): the bag (`L` is its length) and the output length. -/
  | strfrom (bag : List Byte) (n : Word)
  /-- `ranged` (format R, R80, R193): the 64-bit range and the count. -/
  | ranged (range : BitVec 64) (count : Word)
deriving DecidableEq, Repr

end Sys2Proof
end

