-- ==== Sys2Proof/Machine/Dispatch.lean ====
section
/-! DEFINITION. The dispatch of commands to their meanings: one arm per constructor of `Instr`. -/

namespace Sys2Proof.Machine

open Sys2Proof

def exec (i : Instr) (s : State) : Host.Outcome State Fault Refusal :=
  match i with
  | .construct bits nonblocking => Sys2Proof.Machine.execConstruct bits nonblocking s
  | .seed words => Sys2Proof.Machine.execSeed words s
  | .next => Sys2Proof.Machine.execNext s
  | .bytes n => Sys2Proof.Machine.execBytes n s
  | .hex n => Sys2Proof.Machine.execHex n s
  | .strfrom bag n => Sys2Proof.Machine.execStrfrom bag n s
  | .ranged range count => Sys2Proof.Machine.execRanged range count s

end Sys2Proof.Machine
end

