-- ==== Sys2Proof/WellFormed.lean ====
section
/-! DEFINITION. Which commands have an encoding: a length operand is one 32-bit word (spec/30_encoding.md R79, R81,
R82; D3), so a seed or a bag of 2^32 elements or more cannot be framed. Every other operand has exactly the width
its format gives it. -/

namespace Sys2Proof

/-- The command can be written on the command port. A seed of 257 words or more is well formed: the block reads it
whole and then refuses it (R79, R106). -/
def wellFormed : Instr → Bool
  | .construct _ _ => true
  | .seed words => decide (words.length < 2 ^ 32)
  | .next => true
  | .bytes _ => true
  | .hex _ => true
  | .strfrom bag _ => decide (bag.length < 2 ^ 32)
  | .ranged _ _ => true

end Sys2Proof
end

