-- ==== Sys2Proof/Decode.lean ====
section
/-! DEFINITION. Decoding and encoding of commands (spec/30_encoding.md R70 to R83). The command port is a stream of
32-bit words; the decoder reads one command from its front and gives back the words that follow, or says by name
why there is none. -/

namespace Sys2Proof

/-- Why the front of the command stream is no command. -/
inductive DecodeError where
  /-- The words of the command have not all arrived: not an error of the command, the block waits (R70). -/
  | incomplete
  /-- `RSV`, bits 31:8 of the command word, is not 0 (R71, R73). -/
  | reservedCommandBits
  /-- `OPC` is `0x00` or `0x08`..`0xFF` (R72, R73). -/
  | reservedOpcode
  /-- Bits 31:3 of the option word of CONSTRUCT are not all 0 (R73, R78). -/
  | reservedOptionBits
deriving DecidableEq, Repr

/-- What is read from the front of the command stream: a command and the words after it, or a reason. -/
abbrev Decoded := Except DecodeError (Instr × List Word)

/-- The number of payload words that hold a bag of `len` bytes: `ceil(len / 4)` (R72, R81). -/
def bagWords (len : Word) : Nat :=
  (len.toNat + 3) / 4

/-- Format C (R78). The reserved option bits are seen before `ARG1` is needed, since the first argument word already
makes the command illegal (R73, R83). -/
def decodeConstruct : List Word → Decoded
  | [] => .error .incomplete
  | arg0 :: rest =>
    if arg0 >>> 3 ≠ 0 then .error .reservedOptionBits
    else
      match rest with
      | [] => .error .incomplete
      | arg1 :: rest =>
        let bits := if arg0.getLsbD 0 then some arg1 else none
        let nonblocking := if arg0.getLsbD 1 then some (arg0.getLsbD 2) else none
        .ok (.construct bits nonblocking, rest)

/-- Format S (R79): all `k` payload words are read, even when `k > 256`. -/
def decodeSeed : List Word → Decoded
  | [] => .error .incomplete
  | arg0 :: rest =>
    let k := arg0.toNat
    if rest.length < k then .error .incomplete
    else .ok (.seed (rest.take k), rest.drop k)

/-- Format L (R77). -/
def decodeLength (op : Word → Instr) : List Word → Decoded
  | [] => .error .incomplete
  | arg0 :: rest => .ok (op arg0, rest)

/-- Format B (R81): the unused high bytes of the last payload word are ignored. -/
def decodeStrfrom : List Word → Decoded
  | arg0 :: arg1 :: rest =>
    let k := bagWords arg0
    if rest.length < k then .error .incomplete
    else .ok (.strfrom ((Machine.unpackWords (rest.take k)).take arg0.toNat) arg1, rest.drop k)
  | _ => .error .incomplete

/-- Format R (R80): `range = ARG1 * 2^32 + ARG0`. -/
def decodeRanged : List Word → Decoded
  | arg0 :: arg1 :: arg2 :: rest => .ok (.ranged (arg1 ++ arg0) arg2, rest)
  | _ => .error .incomplete

/-- One command from the front of the command stream (R70 to R73). -/
def decode : List Word → Decoded
  | [] => .error .incomplete
  | cw :: rest =>
    if cw >>> 8 ≠ 0 then .error .reservedCommandBits
    else
      match cw.toNat with
      | 0x01 => decodeConstruct rest
      | 0x02 => decodeSeed rest
      | 0x03 => .ok (.next, rest)
      | 0x04 => decodeLength .bytes rest
      | 0x05 => decodeLength .hex rest
      | 0x06 => decodeStrfrom rest
      | 0x07 => decodeRanged rest
      | _ => .error .reservedOpcode

/-- The option word of CONSTRUCT (R78): `ARG0 = 0`, `1`, `2 + 4V` or `3 + 4V` (R84). -/
def optionWord (bits : Option Word) (nonblocking : Option Bool) : Word :=
  (if bits.isSome then 1 else 0) |||
    match nonblocking with
    | none => 0
    | some false => 2
    | some true => 6

/-- The words of a well-formed command (R72, R76 to R81, R84). DESIGN CHOICE (notes/assumptions/15.md): `ARG1` is 0 in
`construct nonblocking=V`, where R84 gives `ARG0` alone; the block ignores that word (R78). -/
def encode : Instr → List Word
  | .construct bits nonblocking => [0x01, optionWord bits nonblocking, bits.getD 0]
  | .seed words => 0x02 :: BitVec.ofNat 32 words.length :: words
  | .next => [0x03]
  | .bytes n => [0x04, n]
  | .hex n => [0x05, n]
  | .strfrom bag n => 0x06 :: BitVec.ofNat 32 bag.length :: n :: Machine.packBytes bag
  | .ranged range count => [0x07, range.extractLsb' 0 32, range.extractLsb' 32 32, count]

/-- The total number of words of a command, told from its command word and its first argument word (R83); 1 for an
illegal command word or option word (R73). -/
def commandLength (cw arg0 : Word) : Nat :=
  if cw >>> 8 ≠ 0 then 1
  else
    match cw.toNat with
    | 0x01 => if arg0 >>> 3 ≠ 0 then 1 else 3
    | 0x02 => 2 + arg0.toNat
    | 0x03 => 1
    | 0x04 => 2
    | 0x05 => 2
    | 0x06 => 3 + bagWords arg0
    | 0x07 => 4
    | _ => 1

/-- The first `count` 32-bit words of a number whose bit 0 is bit 0 of the first word, as spec/opcode_table.json
numbers an instruction's bits. -/
def wordsOfNat (w : Nat) : (count : Nat) → List Word
  | 0 => []
  | count + 1 => BitVec.ofNat 32 w :: wordsOfNat (w >>> 32) count

/-- The words of an instruction of which the table gives the low `nbits` bits: the bits above are 0, and words of
zeros follow up to the command's length. -/
def tableWords (nbits w : Nat) : List Word :=
  let given := wordsOfNat (w % 2 ^ nbits) ((nbits + 31) / 32)
  given ++ List.replicate (commandLength (given.getD 0 0) (given.getD 1 0) - given.length) 0

/-- The instruction the decoder reads from an instruction's bits, numbered as spec/opcode_table.json numbers them. -/
def decodeTableWord (nbits w : Nat) : Option Instr :=
  match decode (tableWords nbits w) with
  | .ok (i, _) => some i
  | .error _ => none

end Sys2Proof
end

