-- ==== Sys2Proof/Machine/Port.lean ====
section
/-! DEFINITION. Taking a command from the command port (spec/30_encoding.md R70, R73; spec/20_memory.md R63): the
part of a step around the meaning of a command. -/

namespace Sys2Proof.Machine

/-- What the command port gives a step. -/
inductive Fetched where
  /-- A command to execute, and the state with exactly its words taken from the port (R70). -/
  | command (i : Instr) (s : State)
  /-- Nothing to execute: the step ends in this state. -/
  | settled (s : State)

/-- Take one command from the port. An illegal command word is taken alone and answered with `IllegalCommand` (R73,
R212; notes/assumptions/7.md). While a command has not wholly arrived the block stays idle and keeps all its state
(R60, R70, R224; notes/assumptions/4.md). -/
def fetch (s : State) : Fetched :=
  match decode s.cmd with
  | .ok (i, rest) => .command i { s with cmd := rest }
  | .error .incomplete => .settled s
  | .error _ => .settled ({ s with cmd := s.cmd.tail }.raise .illegalCommand)

/-- The host puts these words on the command port, ahead of any that wait there. -/
def State.offer (s : State) (ws : List Word) : State :=
  { s with cmd := ws ++ s.cmd }

end Sys2Proof.Machine
end

