-- ==== Sys2Proof/Machine/Step.lean ====
section
/-! DEFINITION. One step of the block: one command, wholly executed (spec/20_memory.md R60, R63). -/

namespace Sys2Proof.Machine

/-- One step: take a command from the port and execute it, or settle without one. -/
def step (s : State) : Host.Outcome State Fault Refusal :=
  match fetch s with
  | .command i t => exec i t
  | .settled t => .next t

/-- The state with an instruction's words, numbered as spec/opcode_table.json numbers them, next on the command port
(notes/assumptions/4.md). -/
def State.withFetchWord (s : State) (nbits w : Nat) : State :=
  s.offer (tableWords nbits w)

end Sys2Proof.Machine
end

