-- ==== Sys2Proof/Machine/Assembler.lean ====
section
/-! DEFINITION. The assembler syntax (spec/30_encoding.md R84) and the source's names as aliases (R85): a line of text
to the command it stands for, and to the words of that command. A line that is none of the listed forms, names an
unknown option or holds a number its operand has no room for is refused (D14, D15). The block itself never reads
text; this is the host's side of the command port. -/

namespace Sys2Proof.Machine

/-- A blank between the parts of a line. -/
def isBlank (c : Char) : Bool :=
  c == ' ' || c == '\t'

/-- The text without the blanks around it. -/
def trimBlanks (cs : List Char) : List Char :=
  ((cs.dropWhile isBlank).reverse.dropWhile isBlank).reverse

/-- A character of a mnemonic or of an option name. -/
def isNameChar (c : Char) : Bool :=
  c.isAlphanum || c == '_'

/-- The value of a digit in a base up to 16. -/
def digitValue (base : Nat) (c : Char) : Option Nat :=
  let v :=
    if '0' ≤ c ∧ c ≤ '9' then c.toNat - '0'.toNat
    else if 'a' ≤ c ∧ c ≤ 'f' then c.toNat - 'a'.toNat + 10
    else if 'A' ≤ c ∧ c ≤ 'F' then c.toNat - 'A'.toNat + 10
    else base
  if v < base then some v else none

/-- The value of a string of digits, most significant first, after a value already read. -/
def digitsValue (base : Nat) : (read : Nat) → List Char → Option Nat
  | read, [] => some read
  | read, c :: cs =>
    match digitValue base c with
    | none => none
    | some v => digitsValue base (read * base + v) cs

/-- A number: decimal, or hexadecimal after `0x` (R84). -/
def parseNumber (cs : List Char) : Option Nat :=
  match trimBlanks cs with
  | [] => none
  | ['0', 'x'] => none
  | '0' :: 'x' :: digits => digitsValue 16 0 digits
  | digits => digitsValue 10 0 digits

/-- A number that fits an operand of `w` bits (R82, D3). -/
def parseOperand (w : Nat) (cs : List Char) : Option (BitVec w) :=
  match parseNumber cs with
  | none => none
  | some v => if v < 2 ^ w then some (BitVec.ofNat w v) else none

/-- The operands of a line: the text between commas (R84). -/
def splitCommas : List Char → List (List Char)
  | [] => [[]]
  | c :: cs =>
    if c = ',' then [] :: splitCommas cs
    else
      match splitCommas cs with
      | [] => [[c]]
      | field :: fields => (c :: field) :: fields

/-- Each operand as a word. -/
def parseWords : List (List Char) → Option (List Word)
  | [] => some []
  | field :: fields =>
    match parseOperand 32 field, parseWords fields with
    | some w, some ws => some (w :: ws)
    | _, _ => none

/-- The octets of a bag: every character is one octet (R84). -/
def parseOctets : List Char → Option (List Byte)
  | [] => some []
  | c :: cs =>
    match parseOctets cs with
    | none => none
    | some bs => if c.toNat < 256 then some (BitVec.ofNat 8 c.toNat :: bs) else none

/-- The text after `name=`, the option's name matched without regard to case (R85). -/
def optionText (name : String) (cs : List Char) : Option (List Char) :=
  let cs := trimBlanks cs
  let given := (cs.takeWhile isNameChar).map Char.toLower
  match trimBlanks (cs.dropWhile isNameChar) with
  | '=' :: value => if given = name.toList then some value else none
  | _ => none

/-- `bits=B` (R84). -/
def parseBits (cs : List Char) : Option Word :=
  (optionText "bits" cs).bind (parseOperand 32)

/-- `nonblocking=V`, `V` being 0 or 1 (R84, R78). -/
def parseNonblocking (cs : List Char) : Option Bool :=
  match (optionText "nonblocking" cs).bind parseNumber with
  | some 0 => some false
  | some 1 => some true
  | _ => none

/-- The operands of `construct`: none, either option, or both in the listed order (R84). -/
def parseConstruct (operands : List Char) : Option Instr :=
  match operands with
  | [] => some (.construct none none)
  | _ =>
    match splitCommas operands with
    | [o] =>
      match parseBits o, parseNonblocking o with
      | some b, _ => some (.construct (some b) none)
      | none, some v => some (.construct none (some v))
      | none, none => none
    | [o, p] =>
      match parseBits o, parseNonblocking p with
      | some b, some v => some (.construct (some b) (some v))
      | _, _ => none
    | _ => none

/-- The operands of `seed`: any number of words (R84). -/
def parseSeed (operands : List Char) : Option Instr :=
  match operands with
  | [] => some (.seed [])
  | _ => (parseWords (splitCommas operands)).map .seed

/-- The operands of `strfrom`: a double-quoted bag, a comma, a length (R84). -/
def parseStrfrom (operands : List Char) : Option Instr :=
  match operands with
  | '"' :: text =>
    let bag := text.takeWhile (· ≠ '"')
    match text.dropWhile (· ≠ '"') with
    | _ :: rest =>
      match trimBlanks rest with
      | ',' :: count =>
        match parseOctets bag, parseOperand 32 count with
        | some b, some n => some (.strfrom b n)
        | _, _ => none
      | _ => none
    | [] => none
  | _ => none

/-- The operands of `ranged`: a range and a count (R84). -/
def parseRanged (operands : List Char) : Option Instr :=
  match splitCommas operands with
  | [r, c] =>
    match parseOperand 64 r, parseOperand 32 c with
    | some range, some count => some (.ranged range count)
    | _, _ => none
  | _ => none

/-- The operand forms of each mnemonic and alias (R84, R85). -/
def parseOperands (mnemonic : List Char) (operands : List Char) : Option Instr :=
  if mnemonic = "construct".toList ∨ mnemonic = "new".toList then parseConstruct operands
  else if mnemonic = "seed".toList ∨ mnemonic = "isaac_new".toList then parseSeed operands
  else if mnemonic = "next".toList ∨ mnemonic = "irand".toList ∨ mnemonic = "next_u32".toList then
    if operands = [] then some .next else none
  else if mnemonic = "bytes".toList then (parseOperand 32 operands).map .bytes
  else if mnemonic = "hex".toList ∨ mnemonic = "bytes_hex".toList then (parseOperand 32 operands).map .hex
  else if mnemonic = "strfrom".toList ∨ mnemonic = "string_from".toList then parseStrfrom operands
  else if mnemonic = "ranged".toList then parseRanged operands
  else none

/-- One line of assembly: the mnemonic, then the operands (R84). -/
def parseLine (line : String) : Option Instr :=
  let cs := trimBlanks line.toList
  parseOperands (cs.takeWhile isNameChar) (trimBlanks (cs.dropWhile isNameChar))

/-- The words a line of assembly encodes (R84, R85). -/
def assemble (line : String) : Option (List Word) :=
  (parseLine line).map encode

end Sys2Proof.Machine
end

