-- ==== Sys2Proof/Safety.lean ====
section
/-! DEFINITION. What counts as a safe state and a safe run, in the terms the statements use. -/

namespace Sys2Proof.Machine

/-- `rsl` holds the output block of the most recent refill round, unmodified since, and `ra`, `rb`, `rc` and `mem` are
as that round left them: there is an engine state whose refill round gave them (R25, R123). -/
def Engine.AfterRefill (e : Engine) : Prop :=
  ∃ before : Engine, ∃ c : Fin 257, e = { before.isaac with cnt := c }

/-- The legal values of the `bits` option (R30, R172). -/
def legalBits : List Int :=
  [64, 128, 256, 512, 1024, 2048, 4096, 8192]

/-- `CFG_BITS` is 0 (never constructed) or one of the legal values (R27, R30). -/
def legalCfgBits (b : Int) : Prop :=
  b = 0 ∨ b ∈ legalBits

/-- The invariant of the block between commands. -/
structure State.Inv (s : State) : Prop where
  /-- Both memories have 256 words (R25). -/
  memories : s.engine.mem.wf = true ∧ s.engine.rsl.wf = true
  /-- In phase `READY` the output buffer is the block of the last refill round (R25). -/
  block : s.phase = .ready → s.engine.AfterRefill
  /-- `CFG_BITS` holds a legal value (R30). -/
  config : legalCfgBits s.cfgBits
  /-- No block is constructed without being seeded: `CFG_BITS` is still 0 in phase `UNSEEDED` (R26, R27, R171). -/
  unseeded : s.phase = .unseeded → s.cfgBits = 0
  /-- No handle outlives a CONSTRUCT (R159). -/
  handles : s.entropy.heldHandles = []

/-- The block state (R215): everything that a failing command leaves exactly as it was. -/
def State.sameBlock (s t : State) : Prop :=
  t.engine = s.engine ∧ t.phase = s.phase ∧ t.cfgBits = s.cfgBits

/-- The model's parameters, which no command changes (R4, R30, D22). -/
def State.sameParameters (s t : State) : Prop :=
  t.tailMode = s.tailMode ∧ t.platform = s.platform

/-- The engine after `d` draws (R126, R127). -/
def Engine.afterDraws : (d : Nat) → Engine → Engine
  | 0, e => e
  | d + 1, e => Engine.afterDraws d e.advance

/-- The word draw number `d` returns, counted from 1 (R127). -/
def Engine.nthDraw (e : Engine) (d : Nat) : Word :=
  ((e.afterDraws (d - 1)).draw).1

/-- The engine after `r` further refill rounds, with no draw (R124, R127). -/
def Engine.afterRounds : (r : Nat) → Engine → Engine
  | 0, e => e
  | r + 1, e => Engine.afterRounds r e.isaac

/-- The engine after the first `k` steps of a refill round, at positions `0..k-1` (R121, R122). -/
def Engine.afterSteps (k : Nat) (e : Engine) : Engine :=
  ((List.range k).map (BitVec.ofNat 8)).foldl Engine.refillStep e

/-- The mixing registers in order, `s[t]` for `t` in 0..7 (R104). -/
def MixRegs.words (m : MixRegs) : List Word :=
  [m.s0, m.s1, m.s2, m.s3, m.s4, m.s5, m.s6, m.s7]

/-- The engine after the first `g` groups of pass 1 of RANDINIT (R104). -/
def Engine.afterGroupsOne (g : Nat) (e : Engine) : Engine :=
  ((List.range g).map fun k => BitVec.ofNat 8 (8 * k)).foldl (fun e i => e.foldGroup e.rsl i) e

/-- The engine after the first `g` groups of pass 2 of RANDINIT (R104). -/
def Engine.afterGroupsTwo (g : Nat) (e : Engine) : Engine :=
  ((List.range g).map fun k => BitVec.ofNat 8 (8 * k)).foldl (fun e i => e.foldGroup e.mem i) e

/-- What group `g` of a RANDINIT pass does between two engine states (R104): the eight words of `source` in the group are
added into `s0..s7`, MIX runs on the sums, the registers it leaves go to the group's words of `mem`, and nothing else
changes. -/
def Engine.FoldsGroup (pre post : Engine) (source : Memory) (g : Nat) : Prop :=
  (∃ sums : MixRegs,
    (∀ t, t < 8 → sums.words.getD t 0 = pre.mix.words.getD t 0 + source.read (BitVec.ofNat 8 (8 * g + t))) ∧
    post.mix = sums.stir) ∧
  (∀ t, t < 8 → post.mem.read (BitVec.ofNat 8 (8 * g + t)) = post.mix.words.getD t 0) ∧
  (∀ q : Index, q.toNat / 8 ≠ g → post.mem.read q = pre.mem.read q) ∧
  post.ra = pre.ra ∧ post.rb = pre.rb ∧ post.rc = pre.rc ∧ post.rsl = pre.rsl ∧ post.cnt = pre.cnt

/-- The values the first `d` draws offer a range and the rejection loop accepts, in order (R193, R195). -/
def Engine.accepted (e : Engine) (range d : Nat) : List Nat :=
  ((List.range d).map fun j => (e.nthDraw (j + 1)).toNat % divisor range).filter fun r => decide (r < range)

/-- The bytes of a tail of `r` bytes, taken from the word `v` and, for the last byte of a separate 3-byte tail, from
the word `w` drawn after it: bits 15:8, then 23:16, then 7:0 (R57, R176). -/
def tailOctets (mode : TailMode) (r : Nat) (v w : Word) : List Byte :=
  match r, mode with
  | 0, _ => []
  | 1, _ => [v.extractLsb' 0 8]
  | 2, _ => [v.extractLsb' 8 8, v.extractLsb' 16 8]
  | _, .shared => [v.extractLsb' 8 8, v.extractLsb' 16 8, v.extractLsb' 0 8]
  | _, .separate => [v.extractLsb' 8 8, v.extractLsb' 16 8, w.extractLsb' 0 8]

/-- The byte string BYTES `n` returns from an engine state: four bytes a draw, then the tail (R175, R176). -/
def Engine.byteString (e : Engine) (mode : TailMode) (n : Nat) : List Byte :=
  ((List.range (n / 4)).flatMap fun j => le32 (e.nthDraw (j + 1))) ++
    tailOctets mode (n % 4) (e.nthDraw (n / 4 + 1)) (e.nthDraw (n / 4 + 2))

/-- The text of a byte in lowercase hexadecimal, as octets, high nibble first (R88, R179). -/
def hexText (b : Byte) : List Byte :=
  let digit (v : Nat) : Byte := BitVec.ofNat 8 ("0123456789abcdef".toList.getD v '0').toNat
  [digit (b.toNat / 16), digit (b.toNat % 16)]

/-- The commands that draw (R26, R213). -/
def isDrawing : Instr → Bool
  | .construct _ _ => false
  | .seed _ => false
  | .next => true
  | .bytes _ => true
  | .hex _ => true
  | .strfrom _ _ => true
  | .ranged _ _ => true

/-- The commands that use the entropy provider: CONSTRUCT alone (R140). -/
def usesProvider : Instr → Bool
  | .construct _ _ => true
  | .seed _ => false
  | .next => false
  | .bytes _ => false
  | .hex _ => false
  | .strfrom _ _ => false
  | .ranged _ _ => false

/-- The sizes of the chunks an EGD read of `n` bytes asks for: as many of 255 as fit, then the rest (R157). -/
def chunkSizes (n : Nat) : List Nat :=
  List.replicate (n / 255) 255 ++ if n % 255 = 0 then [] else [n % 255]

/-- The little-endian words of a byte string of `4n` bytes (R53, R151). -/
def seedWords (n : Nat) (bytes : List Byte) : List Word :=
  (List.range n).map fun t =>
    u32le (bytes.getD (4 * t) 0) (bytes.getD (4 * t + 1) 0) (bytes.getD (4 * t + 2) 0) (bytes.getD (4 * t + 3) 0)

/-- The commands of a list executed in turn, each on the state the one before it left (R63). -/
def execAll : List Instr → State → Host.Outcome State Fault Refusal
  | [], s => .next s
  | i :: is, s =>
    match exec i s with
    | .next t => execAll is t
    | .fault r => .fault r
    | .refused r => .refused r

end Sys2Proof.Machine
end

