-- ==== Sys2Proof/Certificates/Slice0/Obligations.lean ====
section
/-! DEFINITION. The statements about this model, for the provers. Each docstring names the rules of spec/ it formalises
or rests on; OBLIGATIONS.json lists them. -/

open Sys2Proof Sys2Proof.Machine

/-! ## Encoding and the command port -/

/-- Decoding the words of a well-formed command, whatever words follow, gives the command back and those words
(R70, R76 to R82). -/
def Obligations.DecodeOfEncodeIsTheCommand : Prop :=
  ∀ (i : Instr) (rest : List Word), wellFormed i = true → decode (encode i ++ rest) = .ok (i, rest)

/-- A decoded command has taken exactly as many words as its command word and first argument word say (R70, R83). -/
def Obligations.DecodeTakesTheCommandsWords : Prop :=
  ∀ (ws rest : List Word) (i : Instr), decode ws = .ok (i, rest) →
    commandLength (ws.getD 0 0) (ws.getD 1 0) ≤ ws.length ∧
      rest = ws.drop (commandLength (ws.getD 0 0) (ws.getD 1 0))

/-- The decoder waits exactly when fewer words have arrived than the command's length (R70, R83). That a reserved option
bit of CONSTRUCT is seen before `ARG1` has arrived is the model's reading (notes/assumptions/7.md). -/
def Obligations.DecodeWaitsExactlyForMissingWords : Prop :=
  ∀ ws : List Word,
    decode ws = .error .incomplete ↔ ws.length < commandLength (ws.getD 0 0) (ws.getD 1 0)

/-- A reserved opcode, a nonzero `RSV` or, for CONSTRUCT, a set reserved option bit: the step takes the one command
word, changes nothing else and answers `IllegalCommand`, `0x80` (R73). -/
def Obligations.IllegalWordIsTakenAloneAndAnswered : Prop :=
  ∀ (s : State) (cw : Word) (rest : List Word), s.cmd = cw :: rest →
    (cw.extractLsb' 8 24 ≠ 0 ∨ cw.extractLsb' 0 8 = 0x00 ∨ 0x08 ≤ (cw.extractLsb' 0 8).toNat ∨
      (cw = 0x01 ∧ ∃ arg0 arg1 more, rest = arg0 :: arg1 :: more ∧ arg0.extractLsb' 3 29 ≠ 0)) →
    step s = .next { s with cmd := rest, resp := s.resp ++ [0x80] }

/-- A step with a whole command at the front of the port executes that command on the state with its words taken
(R60, R63, R70). -/
def Obligations.StepRunsTheDecodedCommand : Prop :=
  ∀ (s : State) (i : Instr) (rest : List Word), decode s.cmd = .ok (i, rest) →
    step s = exec i { s with cmd := rest }

/-- A well-formed command put on the command port is what the next step executes (R63, R70). -/
def Obligations.EncodedCommandIsExecutedNext : Prop :=
  ∀ (i : Instr) (s : State), wellFormed i = true → step (s.offer (encode i)) = exec i s

/-- While the command at the front of the port is not whole, a step changes nothing. The model's choice of an idle
step rests on R60, R70 and R224 (notes/assumptions/4.md). -/
def Obligations.IncompleteCommandLeavesTheBlockIdle : Prop :=
  ∀ s : State, decode s.cmd = .error .incomplete → step s = .next s

/-- The example words of spec/30_encoding.md decode to the commands they stand for (R72, R76 to R81). -/
def Obligations.ExampleWordsDecode : Prop :=
  decode [0x00000003] = .ok (.next, []) ∧
  decode [0x00000002, 0x00000000] = .ok (.seed [], []) ∧
  decode [0x00000002, 0x00000008, 0x00000001, 0x00000002, 0x00000003, 0x00000004, 0x00000005, 0x00000006, 0x00000007,
    0x00000008] = .ok (.seed [1, 2, 3, 4, 5, 6, 7, 8], []) ∧
  decode [0x00000004, 0x00000007] = .ok (.bytes 7, []) ∧
  decode [0x00000005, 0x00000008] = .ok (.hex 8, []) ∧
  decode [0x00000006, 0x00000003, 0x00000008, 0x00636261] = .ok (.strfrom [0x61, 0x62, 0x63] 8, []) ∧
  decode [0x00000007, 0x00000000, 0x00000001, 0x00000002] = .ok (.ranged 4294967296 2, []) ∧
  decode [0x00000001, 0x00000001, 0x00000080] = .ok (.construct (some 128) none, []) ∧
  decode [0x00000001, 0x00000003, 0x00000100] = .ok (.construct (some 256) (some false), [])

/-- The assembler gives the words of the example table and of further lines of R84's forms, and the source's names give
the same words (R84, R85). That `ARG1` is 0 in `construct nonblocking=1` is the model's choice, which R84 does not give
(notes/assumptions/15.md); its `ARG0` = 6 is R84's. -/
def Obligations.AssemblyExamplesEncode : Prop :=
  assemble "next" = some [0x3] ∧ assemble "irand" = some [0x3] ∧ assemble "next_u32" = some [0x3] ∧
  assemble "seed" = some [0x2, 0x0] ∧
  assemble "seed 1, 2, 3, 4, 5, 6, 7, 8" = some [0x2, 0x8, 1, 2, 3, 4, 5, 6, 7, 8] ∧
  assemble "isaac_new 0xdeadbeef" = some [0x2, 0x1, 0xdeadbeef] ∧
  assemble "bytes 7" = some [0x4, 0x7] ∧
  assemble "hex 8" = some [0x5, 0x8] ∧ assemble "bytes_hex 8" = some [0x5, 0x8] ∧
  assemble "strfrom \"abc\", 8" = some [0x6, 0x3, 0x8, 0x00636261] ∧
  assemble "string_from \"abc\", 8" = some [0x6, 0x3, 0x8, 0x00636261] ∧
  assemble "ranged 4294967296, 2" = some [0x7, 0x0, 0x1, 0x2] ∧
  assemble "construct" = some [0x1, 0x0, 0x0] ∧
  assemble "construct bits=128" = some [0x1, 0x1, 0x80] ∧
  assemble "construct nonblocking=1" = some [0x1, 0x6, 0x0] ∧
  assemble "construct bits=256, nonblocking=0" = some [0x1, 0x3, 0x100] ∧
  assemble "new BITS=256, NonBlocking=0" = some [0x1, 0x3, 0x100]

/-! ## Responses and errors -/

/-- A step that leaves the idle state answers with one status word of the table, and a payload only after `OK`
(R74, R75, R210). -/
def Obligations.EveryCommandAnswersWithOneStatus : Prop :=
  ∀ s t : State, step s = .next t →
    t = s ∨ ∃ (w : Word) (payload : List Word), t.resp = s.resp ++ w :: payload ∧
      w ∈ ([0x00, 0x01, 0x02, 0x03, 0x04, 0x05, 0x06, 0x80, 0x81, 0x82] : List Word) ∧ (w ≠ 0x00 → payload = [])

/-- A command that answers an error has no payload and leaves `ra`, `rb`, `rc`, `mem`, `rsl`, `cnt`, `phase` and
`CFG_BITS` as they were; a failed CONSTRUCT has released its handles (R215). -/
def Obligations.ErrorLeavesTheBlockUnchanged : Prop :=
  ∀ (s t : State) (st : Status) (payload : List Word),
    step s = .next t → t.resp = s.resp ++ st.word :: payload → st ≠ .ok →
    payload = [] ∧ s.sameBlock t ∧ t.entropy.heldHandles = s.entropy.heldHandles

/-- In phase `UNSEEDED` every drawing command answers `NotSeeded`, `0x81`, and draws nothing, whatever its operands;
SEED and CONSTRUCT never answer it (R213). -/
def Obligations.NotSeededIsCheckedFirst : Prop :=
  (∀ (i : Instr) (s : State), isDrawing i = true → s.phase = .unseeded →
    exec i s = .next { s with resp := s.resp ++ [0x81] }) ∧
  (∀ (i : Instr) (s t : State), isDrawing i = false → exec i s = .next t → t.resp ≠ s.resp ++ [0x81])

/-- Once `READY`, NEXT, BYTES and HEX answer `OK`; RANGED answers an error only for a range that is 0 or above
`2^32`, STRFROM only for an empty bag (R217). -/
def Obligations.EngineCannotFailOnceReady : Prop :=
  ∀ s : State, s.phase = .ready →
    (∀ i : Instr, (i = .next ∨ (∃ n, i = .bytes n) ∨ (∃ n, i = .hex n)) →
      ∃ t payload, exec i s = .next t ∧ t.resp = s.resp ++ 0x00 :: payload) ∧
    (∀ (range : BitVec 64) (count : Word) (t : State) (st : Status) (payload : List Word),
      exec (.ranged range count) s = .next t → t.resp = s.resp ++ st.word :: payload → st ≠ .ok →
      range.toNat = 0 ∨ 2 ^ 32 < range.toNat) ∧
    (∀ (bag : List Byte) (n : Word) (t : State) (st : Status) (payload : List Word),
      exec (.strfrom bag n) s = .next t → t.resp = s.resp ++ st.word :: payload → st ≠ .ok → bag = [])

/-- The operand errors of the drawing commands in phase `READY`, each before any draw: `ZeroRange`, `RangeTooLarge`
and `EmptyBag`, the last also for `n = 0` (R193, R196, R211, R212). -/
def Obligations.SamplingOperandErrors : Prop :=
  ∀ s : State, s.phase = .ready →
    (∀ count : Word, exec (.ranged 0 count) s = .next { s with resp := s.resp ++ [0x82] }) ∧
    (∀ (range : BitVec 64) (count : Word), 2 ^ 32 < range.toNat →
      exec (.ranged range count) s = .next { s with resp := s.resp ++ [0x05] }) ∧
    (∀ n : Word, exec (.strfrom [] n) s = .next { s with resp := s.resp ++ [0x04] })

/-- A `bits` operand that is no legal value, read as 32-bit two's complement, answers `InvalidOption`, `0x01`, before
the provider is consulted (R78, R171, R172, R214). -/
def Obligations.IllegalBitsAnswerInvalidOption : Prop :=
  ∀ (s : State) (arg1 : Word) (nonblocking : Option Bool), arg1.toInt ∉ legalBits →
    exec (.construct (some arg1) nonblocking) s = .next { s with resp := s.resp ++ [0x01] }

/-- Nothing is refused: every command has its meaning in every state (R72). -/
def Obligations.NoCommandIsRefused : Prop :=
  ∀ (i : Instr) (s : State) (r : Refusal), exec i s ≠ .refused r

/-! ## Phase, configuration, reset and the invariant -/

/-- The phase changes only from `UNSEEDED` to `READY`, and only by a SEED or CONSTRUCT that answers `OK`; every one
that does leaves the block `READY`; nothing resets it (R241). -/
def Obligations.PhaseChangesOnlyBySuccessfulSeeding : Prop :=
  (∀ s t : State, step s = .next t → t.phase ≠ s.phase →
    s.phase = .unseeded ∧ t.phase = .ready ∧ t.resp = s.resp ++ [0x00] ∧
      ∃ (i : Instr) (rest : List Word), decode s.cmd = .ok (i, rest) ∧ isDrawing i = false) ∧
  (∀ (i : Instr) (s t : State), isDrawing i = false → exec i s = .next t → t.resp = s.resp ++ [0x00] →
    t.phase = .ready)

/-- After power-on reset the phase is `UNSEEDED` and `CFG_BITS` is 0 (R34, R240). The other reset values are the
model's choice (notes/assumptions/1.md, 6.md) and are not stated. -/
def Obligations.ResetIsUnseededAndUnconfigured : Prop :=
  State.reset.phase = .unseeded ∧ State.reset.cfgBits = 0

/-- The invariant holds after power-on reset. -/
def Obligations.InvariantHoldsAtReset : Prop :=
  State.reset.Inv

/-- Every step keeps the invariant: both memories have 256 words and, in phase `READY`, `rsl` holds the output block
of the most recent refill round (R25); `CFG_BITS` is a legal value (R27, R30); no handle is open between commands
(R159). -/
def Obligations.EveryStepKeepsTheInvariant : Prop :=
  ∀ s t : State, s.Inv → step s = .next t → t.Inv

/-- `CFG_BITS` is 0 after reset; it changes only by a CONSTRUCT that answers `OK`, and every such CONSTRUCT writes its
`bits` there; no command's response or effect depends on it (R27). -/
def Obligations.CfgBitsIsWrittenByConstructAndReadByNothing : Prop :=
  State.reset.cfgBits = 0 ∧
  (∀ (i : Instr) (s t : State), exec i s = .next t → t.cfgBits ≠ s.cfgBits →
    ∃ bits nonblocking, i = .construct bits nonblocking ∧ t.resp = s.resp ++ [0x00]) ∧
  (∀ (bits : Option Word) (nonblocking : Option Bool) (s t : State),
    exec (.construct bits nonblocking) s = .next t → t.resp = s.resp ++ [0x00] → t.cfgBits = bitsOperand bits) ∧
  (∀ (i : Instr) (s t : State) (b : Int), exec i s = .next t →
    ∃ u, exec i { s with cfgBits := b } = .next u ∧ u.resp = t.resp ∧ u.engine = t.engine ∧
      u.phase = t.phase ∧ u.entropy = t.entropy)

/-- In phase `UNSEEDED` no response depends on the engine state, and a successful seeding leaves nothing of it: two
blocks that differ in the engine only answer alike and, once `READY`, are the same (R34). -/
def Obligations.UnseededEngineIsNeverObserved : Prop :=
  ∀ (i : Instr) (s : State) (e : Engine), s.phase = .unseeded →
    ∃ t u, exec i s = .next t ∧ exec i { s with engine := e } = .next u ∧
      u.resp = t.resp ∧ u.phase = t.phase ∧ (t.phase = .ready → u = t)

/-! ## Seeding -/

/-- SEED with at most 256 words loads the zero-padded seed into `rsl`, runs RANDINIT on it, sets the phase and answers
`OK`; nothing else changes. With more words it answers `InvalidSeed`, `0x06`, and nothing changes (R106). RANDINIT sets up
`s0..s7` (R102), zeroes `ra`, `rb` and `rc` (R103), runs the 32 groups of pass 1 over `rsl` and then those of pass 2 over
`mem`, each as R104 says, and ends with a refill round and `cnt = 256` (R105). -/
def Obligations.SeedLoadsThePaddedSeedAndInitialises : Prop :=
  (∀ (s : State) (words : List Word),
    (words.length ≤ 256 → ∃ rsl : Memory,
      (∀ t : Index, rsl.read t = if t.toNat < words.length then words.getD t.toNat 0 else 0) ∧
      exec (.seed words) s = .next { s with
        engine := ({ s.engine with rsl := rsl } : Engine).randinit,
        phase := .ready,
        resp := s.resp ++ [0x00] }) ∧
    (256 < words.length → exec (.seed words) s = .next { s with resp := s.resp ++ [0x06] })) ∧
  (∀ e : Engine,
    let start : Engine := { e with mix := MixRegs.setUp, ra := 0, rb := 0, rc := 0 }
    e.randinit = { ((start.afterGroupsOne 32).afterGroupsTwo 32).isaac with cnt := 256 }) ∧
  (∀ (e : Engine) (g : Nat), g < 32 →
    (e.afterGroupsOne g).FoldsGroup (e.afterGroupsOne (g + 1)) (e.afterGroupsOne g).rsl g ∧
    (e.afterGroupsTwo g).FoldsGroup (e.afterGroupsTwo (g + 1)) (e.afterGroupsTwo g).mem g)

/-- The mixing registers after one MIX of eight copies of `GOLDEN`, and after the four MIXes with which every RANDINIT
begins, whatever the seed (R100, R101, R102; V1, V2). -/
def Obligations.MixingRegistersStartAsTabulated : Prop :=
  (⟨0x9e3779b9, 0x9e3779b9, 0x9e3779b9, 0x9e3779b9, 0x9e3779b9, 0x9e3779b9, 0x9e3779b9, 0x9e3779b9⟩ : MixRegs).stir =
    ⟨0x3f879d38, 0x0e56dea4, 0x616a0f84, 0x7e4c685d, 0x41d767b9, 0x0b360cdb, 0xf273b188, 0x11273859⟩ ∧
  MixRegs.setUp =
    ⟨0x1367df5a, 0x95d90059, 0xc3163e4b, 0x0f421ad8, 0xd92a4a78, 0xa51a3c49, 0xc4efea1b, 0x30609119⟩

/-- The engine state after SEED depends on the seed words only through the padded seed, and not on any state before
(R32, R107). -/
def Obligations.SeededEngineIsAFunctionOfThePaddedSeed : Prop :=
  ∀ (s s' : State) (words : List Word), words.length ≤ 256 →
    ∃ t t', exec (.seed words) s = .next t ∧
      exec (.seed (words ++ List.replicate (256 - words.length) 0)) s' = .next t' ∧ t'.engine = t.engine

/-- Immediately after a successful SEED or CONSTRUCT: `rc = 1`, `cnt = 256`, the phase is `READY`, the rest of the
engine is what RANDINIT computes from the padded seed, which for CONSTRUCT is the `bits / 32` words the provider
answered, and `CFG_BITS` is the validated `bits` after CONSTRUCT and unchanged after SEED (R242). -/
def Obligations.StateAfterSeeding : Prop :=
  (∀ (words : List Word) (s t : State), exec (.seed words) s = .next t → t.resp = s.resp ++ [0x00] →
    t.engine.rc = 1 ∧ t.engine.cnt = 256 ∧ t.phase = .ready ∧ t.cfgBits = s.cfgBits ∧
      t.engine = s.engine.seeded words) ∧
  (∀ (bits : Option Word) (nonblocking : Option Bool) (s t : State),
    exec (.construct bits nonblocking) s = .next t → t.resp = s.resp ++ [0x00] →
    t.engine.rc = 1 ∧ t.engine.cnt = 256 ∧ t.phase = .ready ∧ t.cfgBits = bitsOperand bits ∧
      t.cfgBits ∈ legalBits ∧
      ∃ words : List Word,
        provide s.platform (nonblockingOperand nonblocking) (seedByteCount (bitsOperand bits)) s.entropy =
          (.words words, t.entropy) ∧
        words.length = (bitsOperand bits).toNat / 32 ∧ t.engine = s.engine.seeded words)

/-- What SEED and CONSTRUCT leave unchanged: the command port and the parameters; SEED also the entropy port and
`CFG_BITS`; earlier responses stand (R27, R30, R140). -/
def Obligations.SeedingFrame : Prop :=
  ∀ (i : Instr) (s t : State), isDrawing i = false → exec i s = .next t →
    t.cmd = s.cmd ∧ s.sameParameters t ∧ (∃ response, t.resp = s.resp ++ response) ∧
      (usesProvider i = false → t.entropy = s.entropy ∧ t.cfgBits = s.cfgBits)

/-- Two blocks in any states, seeded with the same seed, one of them padded with zeros, and given the same commands
without CONSTRUCT, answer alike and end in the same engine state (R32, R107, R223; P1, P2). -/
def Obligations.SameSeedGivesTheSameStream : Prop :=
  ∀ (words : List Word) (commands : List Instr) (s s' t : State), words.length ≤ 256 →
    (∀ i ∈ commands, usesProvider i = false) → s'.tailMode = s.tailMode →
    execAll (.seed words :: commands) s = .next t →
    ∃ (t' : State) (responses : List Word),
      execAll (.seed (words ++ List.replicate (256 - words.length) 0) :: commands) s' = .next t' ∧
      t.resp = s.resp ++ responses ∧ t'.resp = s'.resp ++ responses ∧ t'.engine = t.engine

/-! ## The refill round and the output buffer -/

/-- A refill round adds 1 to `rc` and the new `rc` to `rb`, runs the steps at positions `0..255` in order and sets
`cnt = 255` (R121). After it `rsl[255]` is the new `rb`, and no word of the old `rsl` is left: the round gives the same
result from any `rsl` (R123). -/
def Obligations.RefillWritesTheWholeBuffer : Prop :=
  ∀ e : Engine,
    e.isaac = { ({ e with rc := e.rc + 1, rb := e.rb + (e.rc + 1) } : Engine).afterSteps 256 with cnt := 255 } ∧
    e.isaac.cnt = 255 ∧ e.isaac.rsl.read 255 = e.isaac.rb ∧
    ∀ rsl : Memory, ({ e with rsl := rsl } : Engine).isaac = e.isaac

/-- `rc` counts the refill rounds since the last RANDINIT modulo `2^32`, the one inside RANDINIT being the first
(R124). -/
def Obligations.RcCountsRefillRounds : Prop :=
  ∀ (e : Engine) (seed : List Word) (r : Nat),
    ((e.seeded seed).afterRounds r).rc = BitVec.ofNat 32 (r + 1)

/-- Step `p` of a refill round, its five parts in order (R121): it writes `y` to `mem[p]` and the new `rb` to `rsl[p]`, and
besides those changes `ra` and `rb` only. Its reads see the round's own writes: (a) step 4 at the step's own position
returns `x`; (b) step 5 there returns `y`; (c) below `p` the value this round wrote there, above `p` the value from before
the round; (d) step 3 reads a pre-round value for `p < 128`, and for `p >= 128` the value written in this round
(R122). -/
def Obligations.RefillReadsSeeTheRoundsOwnWrites : Prop :=
  ∀ (e : Engine) (p : Index),
    let pre := e.afterSteps p.toNat
    let post := pre.refillStep p
    let x := pre.mem.read p
    let y := post.mem.read p
    (e.afterSteps (p.toNat + 1) = post) ∧
    (y = pre.mem.read (stepFourIndex x) + post.ra + pre.rb) ∧
    (stepFourIndex x = p → y = x + post.ra + pre.rb) ∧
    (stepFiveIndex y = p → post.rb = y + x) ∧
    (stepFiveIndex y ≠ p → post.rb = pre.mem.read (stepFiveIndex y) + x) ∧
    (post.rsl.read p = post.rb) ∧
    (∀ q : Index, q ≠ p → post.mem.read q = pre.mem.read q ∧ post.rsl.read q = pre.rsl.read q) ∧
    (post.rc = pre.rc ∧ post.mix = pre.mix ∧ post.cnt = pre.cnt) ∧
    (∀ q : Index, q.toNat < p.toNat → pre.mem.read q = (e.afterSteps (q.toNat + 1)).mem.read q) ∧
    (∀ q : Index, p.toNat ≤ q.toNat → pre.mem.read q = e.mem.read q) ∧
    (post.ra = barrel p pre.ra + pre.mem.read (p + 128)) ∧
    (p.toNat < 128 → pre.mem.read (p + 128) = e.mem.read (p + 128)) ∧
    (128 ≤ p.toNat → pre.mem.read (p + 128) = (e.afterSteps (p.toNat - 127)).mem.read (p + 128))

/-- The right-shift masks of the refill round leave the shifted value unchanged, and the two computed indices are bits
9:2 and 17:10 of their words (R7, R52, R120, R121). -/
def Obligations.MasksAndIndicesAreBitFields : Prop :=
  ∀ (p : Index) (v : Word),
    (p.toNat % 4 = 0 → barrel p v = v ^^^ (v <<< 13)) ∧
    (p.toNat % 4 = 1 → barrel p v = v ^^^ (v >>> 6)) ∧
    (p.toNat % 4 = 2 → barrel p v = v ^^^ (v <<< 2)) ∧
    (p.toNat % 4 = 3 → barrel p v = v ^^^ (v >>> 16)) ∧
    stepFourIndex v = v.extractLsb' 2 8 ∧ stepFiveIndex v = v.extractLsb' 10 8

/-- NEXT in phase `READY`: with `cnt = 0` it runs one refill round and returns `rsl[255]` of the new block; else it
counts down and returns `rsl` at the new count, so that the first draw after seeding (`cnt = 256`) returns
`rsl[255]` without a refill (R126, R251). -/
def Obligations.NextReturnsTheNextBufferedWord : Prop :=
  ∀ s : State, s.phase = .ready →
    (s.engine.cnt = 0 →
      exec .next s = .next { s with
        engine := s.engine.isaac, resp := s.resp ++ [0x00, s.engine.isaac.rsl.read 255] }) ∧
    (∀ c : Fin 257, s.engine.cnt.val = c.val + 1 →
      exec .next s = .next { s with
        engine := { s.engine with cnt := c },
        resp := s.resp ++ [0x00, s.engine.rsl.read (BitVec.ofNat 8 c.val)] })

/-- Draw `d` after a seeding returns word `rsl[(256 - (d mod 256)) mod 256]` of output block `ceil(d / 256)`, block 1
being RANDINIT's, and performs a refill round exactly when `d > 256` and `d mod 256 = 1` (R127). -/
def Obligations.RefillBoundary : Prop :=
  ∀ (e : Engine) (seed : List Word) (d : Nat), 1 ≤ d →
    let e0 := e.seeded seed
    e0.nthDraw d =
      (e0.afterRounds ((d + 255) / 256 - 1)).rsl.read (BitVec.ofNat 8 ((256 - d % 256) % 256)) ∧
    ((256 < d ∧ d % 256 = 1) → (e0.afterDraws d).rc = (e0.afterDraws (d - 1)).rc + 1) ∧
    (¬ (256 < d ∧ d % 256 = 1) → (e0.afterDraws d).rc = (e0.afterDraws (d - 1)).rc)

/-- What a drawing command leaves unchanged: the phase, `CFG_BITS`, both input ports, the parameters and `s0..s7`. It
changes the engine by draws alone; while they do not outrun `cnt` no word of `mem` or `rsl` and no accumulator
changes, and `cnt` goes down by one a draw (R26, R126, R140, R213). -/
def Obligations.DrawingFrame : Prop :=
  ∀ (i : Instr) (s t : State), isDrawing i = true → exec i s = .next t →
    t.phase = s.phase ∧ t.cfgBits = s.cfgBits ∧ t.cmd = s.cmd ∧ t.entropy = s.entropy ∧ s.sameParameters t ∧
    t.engine.mix = s.engine.mix ∧ (∃ response, t.resp = s.resp ++ response) ∧
    ∃ d : Nat, t.engine = s.engine.afterDraws d ∧
      (d ≤ s.engine.cnt.val →
        (∀ a : Index, t.engine.mem.read a = s.engine.mem.read a ∧ t.engine.rsl.read a = s.engine.rsl.read a) ∧
        t.engine.ra = s.engine.ra ∧ t.engine.rb = s.engine.rb ∧ t.engine.rc = s.engine.rc ∧
        t.engine.cnt.val = s.engine.cnt.val - d)

/-! ## Byte and hexadecimal output -/

/-- BYTES `n` in phase `READY` returns the little-endian bytes of `n / 4` draws and then the tail of `n mod 4` bytes,
exactly `n` bytes, takes exactly the draws of R177 and answers `OK`; nothing else changes (R175, R176, R177). -/
def Obligations.BytesReturnsTheByteString : Prop :=
  ∀ (s : State) (n : Word), s.phase = .ready →
    (s.engine.byteString s.tailMode n.toNat).length = n.toNat ∧
    exec (.bytes n) s = .next { s with
      engine := s.engine.afterDraws (byteDraws s.tailMode n.toNat),
      resp := s.resp ++ 0x00 :: packBytes (s.engine.byteString s.tailMode n.toNat) }

/-- HEX `n` in phase `READY` returns the bytes of BYTES `n` as lowercase hexadecimal text, high nibble first, `2n`
octets, with the same draws (R88, R179). -/
def Obligations.HexReturnsTheByteStringAsText : Prop :=
  ∀ (s : State) (n : Word), s.phase = .ready →
    ((s.engine.byteString s.tailMode n.toNat).flatMap hexText).length = 2 * n.toNat ∧
    exec (.hex n) s = .next { s with
      engine := s.engine.afterDraws (byteDraws s.tailMode n.toNat),
      resp := s.resp ++ 0x00 :: packBytes ((s.engine.byteString s.tailMode n.toNat).flatMap hexText) }

/-- A string of `m` bytes is packed into `ceil(m / 4)` words; byte `p` is bits `8(p mod 4)+7 : 8(p mod 4)` of word
`p / 4`, and the unused high bytes of the last word are 0 (R56, R74). -/
def Obligations.PackedBytesStandInTheirWords : Prop :=
  ∀ bytes : List Byte,
    (packBytes bytes).length = (bytes.length + 3) / 4 ∧
    ∀ p : Nat, p < 4 * (packBytes bytes).length →
      ((packBytes bytes).getD (p / 4) 0).extractLsb' (8 * (p % 4)) 8 = bytes.getD p 0

/-! ## Ranged sampling -/

/-- The divisor of a range in the domain is a power of two in `[1, 2^32]`, at least the range, and its half, rounded
down, is below the range: the least power of two at or above the range, which for range 1 is 1 (R190, R191). -/
def Obligations.DivisorIsTheLeastPowerOfTwo : Prop :=
  ∀ range : Nat, 1 ≤ range → range ≤ 2 ^ 32 →
    (∃ k, k ≤ 32 ∧ divisor range = 2 ^ k) ∧ range ≤ divisor range ∧ divisor range / 2 < range

/-- Reducing a word modulo a divisor keeps its low bits; all of them for `2^32`, none for 1 (R192). -/
def Obligations.ReductionKeepsTheLowBits : Prop :=
  ∀ (v : Word) (range : Nat), 1 ≤ range → range ≤ 2 ^ 32 →
    v.toNat % divisor range = (v &&& BitVec.ofNat 32 (divisor range - 1)).toNat ∧
    v.toNat % divisor (2 ^ 32) = v.toNat ∧ v.toNat % divisor 1 = 0

/-- RANGED completes whenever enough draws are accepted: if draw `d` is the one that brings the accepted values to
`count` (no draw for `count = 0`), it returns exactly the accepted values in order, having taken `d` draws
(R193, R195). -/
def Obligations.RangedReturnsTheAcceptedDraws : Prop :=
  ∀ (s : State) (range : BitVec 64) (count : Word) (d : Nat), s.phase = .ready →
    1 ≤ range.toNat → range.toNat ≤ 2 ^ 32 →
    (s.engine.accepted range.toNat d).length = count.toNat →
    (d = 0 ∨ (s.engine.nthDraw d).toNat % divisor range.toNat < range.toNat) →
    exec (.ranged range count) s = .next { s with
      engine := s.engine.afterDraws d,
      resp := s.resp ++ 0x00 :: (s.engine.accepted range.toNat d).map (BitVec.ofNat 32) }

/-- STRFROM completes whenever enough draws are accepted, and returns the octets of the bag at the accepted values, in
order (R195, R196). -/
def Obligations.StrfromReturnsTheSampledOctets : Prop :=
  ∀ (s : State) (bag : List Byte) (n : Word) (d : Nat), s.phase = .ready →
    bag ≠ [] → bag.length < 2 ^ 32 →
    (s.engine.accepted bag.length d).length = n.toNat →
    (d = 0 ∨ (s.engine.nthDraw d).toNat % divisor bag.length < bag.length) →
    exec (.strfrom bag n) s = .next { s with
      engine := s.engine.afterDraws d,
      resp := s.resp ++ 0x00 :: packBytes ((s.engine.accepted bag.length d).map fun r => bag.getD r 0) }

/-- A power-of-two range never rejects: RANGED completes with one draw a value, each the low bits of its draw; STRFROM
with a bag of that length likewise (R192, R193, R196). -/
def Obligations.PowerOfTwoRangesNeverReject : Prop :=
  (∀ (s : State) (k : Nat) (count : Word), s.phase = .ready → k ≤ 32 →
    exec (.ranged (BitVec.ofNat 64 (2 ^ k)) count) s = .next { s with
      engine := s.engine.afterDraws count.toNat,
      resp := s.resp ++ 0x00 :: (List.range count.toNat).map fun j =>
        s.engine.nthDraw (j + 1) &&& BitVec.ofNat 32 (2 ^ k - 1) }) ∧
  (∀ (s : State) (k : Nat) (bag : List Byte) (n : Word), s.phase = .ready → k < 32 → bag.length = 2 ^ k →
    exec (.strfrom bag n) s = .next { s with
      engine := s.engine.afterDraws n.toNat,
      resp := s.resp ++ 0x00 :: packBytes ((List.range n.toNat).map fun j =>
        bag.getD (s.engine.nthDraw (j + 1) &&& BitVec.ofNat 32 (2 ^ k - 1)).toNat 0) })

/-- Every command answers a next state in every state (a command turned away answers its error status there), but for a
RANGED or STRFROM in phase `READY` whose rejection loop never ends, that is, for which no number of draws has enough
accepted values; such a command stops, and nothing else does (R60, R195, I15). The stop is notes/assumptions/3.md; that
the platform always answers a CONSTRUCT is notes/assumptions/5.md. No state with an endless loop is known. -/
def Obligations.EveryCommandCompletesUnlessItsRejectionLoopIsEndless : Prop :=
  ∀ (i : Instr) (s : State),
    let endless : Prop := s.phase = .ready ∧
      ((∃ range count, i = .ranged range count ∧ 1 ≤ range.toNat ∧ range.toNat ≤ 2 ^ 32 ∧
          ∀ d, (s.engine.accepted range.toNat d).length < count.toNat) ∨
        (∃ bag n, i = .strfrom bag n ∧ bag ≠ [] ∧
          ∀ d, (s.engine.accepted bag.length d).length < n.toNat))
    (¬ endless → ∃ t, exec i s = .next t) ∧ (endless → exec i s = .fault .rejectionNeverEnds)

/-- A RANGED that answers `OK` returns `count` words, each below the range (R193). -/
def Obligations.RangedValuesAreBelowTheRange : Prop :=
  ∀ (s t : State) (range : BitVec 64) (count : Word) (payload : List Word),
    exec (.ranged range count) s = .next t → t.resp = s.resp ++ 0x00 :: payload →
    payload.length = count.toNat ∧ ∀ w ∈ payload, w.toNat < range.toNat

/-- Every octet of a STRFROM response is an octet of the bag, and there are exactly `n` of them (R198). -/
def Obligations.StrfromOctetsAreOfTheBag : Prop :=
  ∀ (s t : State) (bag : List Byte) (n : Word) (payload : List Word),
    exec (.strfrom bag n) s = .next t → t.resp = s.resp ++ 0x00 :: payload →
    ∃ out : List Byte, out.length = n.toNat ∧ (∀ b ∈ out, b ∈ bag) ∧ payload = packBytes out

/-- STRFROM takes the draws RANGED `L, n` takes from the same state and maps each value to the octet of the bag there
(R197). -/
def Obligations.StrfromMapsTheValuesOfRanged : Prop :=
  ∀ (s t : State) (bag : List Byte) (n : Word) (values : List Word), bag.length < 2 ^ 32 →
    exec (.ranged (BitVec.ofNat 64 bag.length) n) s = .next t → t.resp = s.resp ++ 0x00 :: values →
    exec (.strfrom bag n) s = .next { t with
      resp := s.resp ++ 0x00 :: packBytes (values.map fun v => bag.getD v.toNat 0) }

/-! ## Construction and the entropy provider -/

/-- The valid values of `bits` are exactly the eight the rule lists; CONSTRUCT answers `InvalidOption` for every other
value and for none of these (R172). -/
def Obligations.ValidBitsAreTheEightPowersOfTwo : Prop :=
  (∀ bits : Int, validBits bits = true ↔ bits ∈ legalBits) ∧
  (∀ (s t : State) (bits : Option Word) (nonblocking : Option Bool), exec (.construct bits nonblocking) s = .next t →
    (t.resp = s.resp ++ [0x01] ↔ bitsOperand bits ∉ legalBits))

/-- CONSTRUCT with the OS API available and its reply at hand: one request for `bits / 8` bytes, decoded as
`bits / 32` little-endian words, seeds the engine, whatever the blocking policy (R144, R151, R153, R171, R173). -/
def Obligations.ConstructSeedsFromTheOsApi : Prop :=
  ∀ (s : State) (bits : Option Word) (nonblocking : Option Bool) (bytes : List Byte) (more : List Reply),
    bitsOperand bits ∈ legalBits → s.platform.osApiAvailable = true →
    s.entropy.replies = .ok bytes :: more → (bitsOperand bits).toNat / 8 ≤ bytes.length →
    exec (.construct bits nonblocking) s = .next { s with
      engine := s.engine.seeded (seedWords ((bitsOperand bits).toNat / 32) bytes),
      phase := .ready,
      cfgBits := bitsOperand bits,
      resp := s.resp ++ [0x00],
      entropy :=
        { replies := more, taken := s.entropy.taken + 1,
          log := s.entropy.log ++ [.osRequest ((bitsOperand bits).toNat / 8)] } }

/-- CONSTRUCT from a device, with no OS API. Under the nonblocking policy it is the non-blocking device, or without one the
other device where the platform says it does not block, and the EGD sockets are not touched; when blocking sources are
allowed and no EGD socket passes its probe it is the non-blocking device, or without one the other. The device is
probed (opened and closed), opened, read in as many parts as the platform gives, each time for the bytes still missing,
and closed (R142, R143, R144, R147, R152, R171). That the probe succeeds exactly when the platform names the device, and
that the actions stand in a log, is the model's reading (notes/assumptions/9.md). -/
def Obligations.ConstructSeedsFromADevice : Prop :=
  ∀ (s : State) (bits : Option Word) (nonblocking : Option Bool) (path : String) (probed : EntropyPort)
    (opened : List Byte) (parts : List (List Byte)) (more : List Reply),
    bitsOperand bits ∈ legalBits → s.platform.osApiAvailable = false →
    ((nonblockingOperand nonblocking = true ∧ probed = s.entropy ∧
        (s.platform.nbDevicePath = some path ∨
          (s.platform.nbDevicePath = none ∧ s.platform.bDevicePath = some path ∧
            s.platform.blockingDevIsNonblocking = true))) ∨
      (nonblockingOperand nonblocking = false ∧ probeEgd s.platform egdPaths s.entropy = (none, probed) ∧
        (s.platform.nbDevicePath = some path ∨
          (s.platform.nbDevicePath = none ∧ s.platform.bDevicePath = some path)))) →
    (∀ part ∈ parts, part ≠ []) → parts.flatten.length = (bitsOperand bits).toNat / 8 →
    probed.replies = .ok opened :: (parts.map .ok ++ more) →
    exec (.construct bits nonblocking) s = .next { s with
      engine := s.engine.seeded (seedWords ((bitsOperand bits).toNat / 32) parts.flatten),
      phase := .ready,
      cfgBits := bitsOperand bits,
      resp := s.resp ++ [0x00],
      entropy :=
        { replies := more, taken := probed.taken + 1 + parts.length,
          log := probed.log ++ [.openFile path true, .closeFile path, .openFile path true] ++
            (List.range parts.length).map
              (fun k => .readFile ((bitsOperand bits).toNat / 8 - (parts.take k).flatten.length)) ++
            [.closeFile path] } }

/-- CONSTRUCT from an EGD socket when blocking sources are allowed and there is no OS API: the one socket that answers,
after those before it have failed to connect, is probed with `00`, whatever the count it replies, and read in requests of
at most 255 bytes (R144, R156, R157, R159, R171). That the read connects again, that the paths outside `EGD_SOCKETS` fail to
connect and take no reply (D22), and that a request and its answer are one reply, is the model's reading
(notes/assumptions/8.md). -/
def Obligations.ConstructSeedsFromAnEgdSocket : Prop :=
  ∀ (s : State) (bits : Option Word) (path : EgdPath) (count connected : List Byte) (parts : List (List Byte))
    (more : List Reply),
    bitsOperand bits ∈ legalBits → s.platform.osApiAvailable = false → s.platform.egdSockets = [path] →
    4 ≤ count.length → parts.map List.length = chunkSizes ((bitsOperand bits).toNat / 8) →
    s.entropy.replies = .ok count :: .ok connected :: (parts.map .ok ++ more) →
    exec (.construct bits (some false)) s = .next { s with
      engine := s.engine.seeded (seedWords ((bitsOperand bits).toNat / 32) parts.flatten),
      phase := .ready,
      cfgBits := bitsOperand bits,
      resp := s.resp ++ [0x00],
      entropy :=
        { replies := more, taken := s.entropy.taken + 2 + parts.length,
          log := s.entropy.log ++ (egdPaths.takeWhile (fun p => p ≠ path)).map (fun p => .connect p false) ++
            [.connect path true, .exchange [0x00] 4, .disconnect path, .connect path true] ++
            parts.map (fun part => .exchange [0x02, BitVec.ofNat 8 part.length] part.length) ++
            [.disconnect path] } }

/-- CONSTRUCT with legal bits: with no source it answers `NoEntropySource`, `0x02`; when the selected source's read
fails it answers `EntropyReadError`, `0x03`, and no other source is tried; the block is unchanged (R155, R171, R211,
R215). -/
def Obligations.ConstructReportsProviderErrors : Prop :=
  ∀ (s : State) (bits : Option Word) (nonblocking : Option Bool), bitsOperand bits ∈ legalBits →
    (∀ q, selectSource s.platform (nonblockingOperand nonblocking) s.entropy = (none, q) →
      exec (.construct bits nonblocking) s = .next { s with resp := s.resp ++ [0x02], entropy := q }) ∧
    (∀ source q q', selectSource s.platform (nonblockingOperand nonblocking) s.entropy = (some source, q) →
      entropyRead source ((bitsOperand bits).toNat / 8) q = (none, q') →
      exec (.construct bits nonblocking) s = .next { s with resp := s.resp ++ [0x03], entropy := q' })

/-- Selection of a source: the OS API first; under the nonblocking policy the EGD sockets are skipped, and the blocking
device too unless the platform says it does not block; otherwise the candidates in order, and none when no probe
succeeds (R143, R144, R146, R147). -/
def Obligations.SelectionFollowsThePriorityOrder : Prop :=
  ∀ (p : Platform) (q : EntropyPort),
    (p.osApiAvailable = true → ∀ nonblocking, selectSource p nonblocking q = (some .osApi, q)) ∧
    (p.osApiAvailable = false →
      (selectSource p true q).1 =
        (match p.nbDevicePath, p.bDevicePath, p.blockingDevIsNonblocking with
          | some path, _, _ => some (.nbDevice path)
          | none, some path, true => some (.bDevice path)
          | none, _, _ => none) ∧
      (selectSource p false q).1 =
        (match (probeEgd p egdPaths q).1, p.nbDevicePath, p.bDevicePath with
          | some path, _, _ => some (.egd path)
          | none, some path, _ => some (.nbDevice path)
          | none, none, some path => some (.bDevice path)
          | none, none, none => none))

/-- The EGD probe tries the four paths in order. A path that does not answer is abandoned for the next; one whose four
reply bytes arrive is accepted whatever the count; a short reply, a failure or a timeout abandons it; with no path
left the probe fails (R156), and a socket that was opened is closed (R159). That a path outside `EGD_SOCKETS` fails to
connect and takes no reply, that a path in it connects without one, and that the request and its answer are one reply,
is the model's reading (D22; notes/assumptions/8.md); that the actions stand in a log is notes/assumptions/9.md. -/
def Obligations.EgdProbeAcceptsAnyFullReply : Prop :=
  ∀ (p : Platform) (q : EntropyPort),
    probe p .egd q =
      (let r := probeEgd p [.varRunEgdPool, .devEgdPool, .etcEgdPool, .etcEntropy] q
       (r.1.map .egd, r.2)) ∧
    probeEgd p [] q = (none, q) ∧
    ∀ (path : EgdPath) (paths : List EgdPath),
      (path ∉ p.egdSockets →
        probeEgd p (path :: paths) q = probeEgd p paths (q.note (.connect path false))) ∧
      (path ∈ p.egdSockets → ∀ r more, q.replies = r :: more →
        let q' : EntropyPort :=
          { replies := more, taken := q.taken + 1,
            log := q.log ++ [.connect path true, .exchange [0x00] 4, .disconnect path] }
        ((∃ bytes, r = .ok bytes ∧ 4 ≤ bytes.length) → probeEgd p (path :: paths) q = (some path, q')) ∧
        (r = .failed ∨ (∃ bytes, r = .ok bytes ∧ bytes.length < 4) →
          probeEgd p (path :: paths) q = probeEgd p paths q'))

/-- A read that succeeds gives exactly the bytes asked for, from every kind of source (R141, R150, R151). -/
def Obligations.EntropyReadGivesExactlyTheBytesAsked : Prop :=
  ∀ (source : Source) (n : Nat) (q q' : EntropyPort) (bytes : List Byte),
    entropyRead source n q = (some bytes, q') → bytes.length = n

/-- A successful EGD read of `n` bytes has sent the requests `02 ff` as often as 255 fits and one for the rest, and
closed its socket (R87, R157, R159). That it connects first is the model's reading (notes/assumptions/8.md). -/
def Obligations.EgdReadSendsTheChunkRequests : Prop :=
  ∀ (path : EgdPath) (n : Nat) (q q' : EntropyPort) (bytes : List Byte),
    readEgd path n q = (some bytes, q') →
    q'.log = q.log ++ [.connect path true] ++
      (chunkSizes n).map (fun c => .exchange [0x02, BitVec.ofNat 8 c] c) ++ [.disconnect path]

/-- A device read opens the device and collects the parts the platform gives until it has all bytes, each time asking
for the bytes still missing; a part of 0 bytes or an error aborts it; the device is closed on both paths, and a failed
open is a read error (R152). -/
def Obligations.DeviceReadCollectsPartialReads : Prop :=
  (∀ (path : String) (n : Nat) (q : EntropyPort) (opened : List Byte) (parts : List (List Byte))
    (more : List Reply),
    (∀ part ∈ parts, part ≠ []) → parts.flatten.length = n →
    q.replies = .ok opened :: (parts.map .ok ++ more) →
    ∃ q', readFile path n q = (some parts.flatten, q') ∧ q'.replies = more ∧
      q'.log = q.log ++ [.openFile path true] ++
        (List.range parts.length).map (fun k => .readFile (n - (parts.take k).flatten.length)) ++
        [.closeFile path]) ∧
  (∀ (path : String) (n : Nat) (q : EntropyPort) (opened : List Byte) (parts : List (List Byte))
    (bad : Reply) (more : List Reply),
    (∀ part ∈ parts, part ≠ []) → parts.flatten.length < n → (bad = .failed ∨ bad = .ok []) →
    q.replies = .ok opened :: (parts.map .ok ++ bad :: more) →
    ∃ q', readFile path n q = (none, q') ∧ q'.replies = more ∧ q'.log.getLast? = some (.closeFile path)) ∧
  (∀ (path : String) (n : Nat) (q : EntropyPort) (more : List Reply), q.replies = .failed :: more →
    ∃ q', readFile path n q = (none, q') ∧ q'.replies = more ∧ q'.log = q.log ++ [.openFile path false])

/-- The words the provider hands over are the little-endian words of exactly `4n` bytes read from the selected source
(R151). -/
def Obligations.ProvidedWordsAreTheLittleEndianWordsRead : Prop :=
  ∀ (p : Platform) (nonblocking : Bool) (n : Nat) (q q' : EntropyPort) (words : List Word),
    provide p nonblocking (4 * n) q = (.words words, q') →
    ∃ (source : Source) (q1 : EntropyPort) (bytes : List Byte),
      selectSource p nonblocking q = (some source, q1) ∧ entropyRead source (4 * n) q1 = (some bytes, q') ∧
      bytes.length = 4 * n ∧ words.length = n ∧
      ∀ t < n, words.getD t 0 =
        u32le (bytes.getD (4 * t) 0) (bytes.getD (4 * t + 1) 0) (bytes.getD (4 * t + 2) 0) (bytes.getD (4 * t + 3) 0)

/-- Every OS handle a probe or a read opens is released before it returns, on every path including failures, and no
handle outlives a command (R159). -/
def Obligations.NoHandleOutlivesACommand : Prop :=
  (∀ (p : Platform) (c : Candidate) (q : EntropyPort), (probe p c q).2.heldHandles = q.heldHandles) ∧
  (∀ (source : Source) (n : Nat) (q : EntropyPort), (entropyRead source n q).2.heldHandles = q.heldHandles) ∧
  (∀ (i : Instr) (s t : State), exec i s = .next t → t.entropy.heldHandles = s.entropy.heldHandles)

/-! ## The host's side -/

/-- The host's coercion of a length is `floor(|n|)`, refused at `2^32` and above (R174). -/
def Obligations.HostLengthIsTheTruncatedAbsoluteValue : Prop :=
  ∀ n : Rat, hostLength n = if ⌊|n|⌋ < 2 ^ 32 then some (BitVec.ofInt 32 ⌊|n|⌋) else none
end

