-- ==== Sys2Proof/Laws/Bytes.lean ====
section
/-! SUPPORT. The laws of byte order: the bytes of a packed word, and the lengths of packed and unpacked strings. -/

namespace Sys2Proof.Machine

@[simp] theorem le32_length (v : Word) : (le32 v).length = 4 := rfl

@[simp] theorem le16_length (v : Half) : (le16 v).length = 2 := rfl

/-- The bytes of a word built from bytes are those bytes (R10). -/
theorem le32_u32le (b0 b1 b2 b3 : Byte) : le32 (u32le b0 b1 b2 b3) = [b0, b1, b2, b3] := by
  simp only [le32, List.cons.injEq, and_true]
  refine ⟨?_, ?_, ?_, ?_⟩ <;>
    · ext i hi
      simp only [u32le, BitVec.getElem_extractLsb', BitVec.getLsbD_or, BitVec.getLsbD_shiftLeft,
        BitVec.getLsbD_setWidth]
      have := hi
      interval_cases i <;> simp [BitVec.getLsbD_of_ge]

/-- A word is built from its bytes (R10). -/
theorem u32le_bytes (v : Word) :
    u32le (v.extractLsb' 0 8) (v.extractLsb' 8 8) (v.extractLsb' 16 8) (v.extractLsb' 24 8) = v := by
  ext i hi
  simp only [u32le, BitVec.getElem_or, BitVec.getElem_shiftLeft, BitVec.getElem_setWidth,
    BitVec.getLsbD_extractLsb']
  have := hi
  interval_cases i <;> simp [BitVec.getLsbD_eq_getElem]

/-- A string of `m` bytes takes `ceil(m / 4)` words (R74). -/
theorem packBytes_length : ∀ bs : List Byte, (packBytes bs).length = (bs.length + 3) / 4
  | [] => rfl
  | [_] => by simp [packBytes]
  | [_, _] => by simp [packBytes]
  | [_, _, _] => by simp [packBytes]
  | _ :: _ :: _ :: _ :: rest => by
    have ih := packBytes_length rest
    simp only [packBytes, List.length_cons, ih]
    omega

theorem unpackWords_nil : unpackWords [] = [] := rfl

theorem unpackWords_cons (w : Word) (ws : List Word) : unpackWords (w :: ws) = le32 w ++ unpackWords ws := rfl

theorem unpackWords_length (ws : List Word) : (unpackWords ws).length = 4 * ws.length := by
  induction ws with
  | nil => rfl
  | cons w ws ih => simp only [unpackWords_cons, List.length_append, le32_length, ih, List.length_cons]; omega

end Sys2Proof.Machine
end

