-- ==== Sys2Proof/Laws/Memory.lean ====
section
/-! SUPPORT. The laws of the two memories: a read after a write, a write keeps the form, and two memories with the
same words are the same memory; and the index lists of the loops. -/

namespace Sys2Proof.Machine

@[simp] theorem Memory.read_write_self (m : Memory) (i : Index) (v : Word) : (m.write i v).read i = v := by
  simp [Memory.read, Memory.write]

theorem Memory.read_write_of_ne (m : Memory) {i j : Index} (v : Word) (h : i ≠ j) :
    (m.write i v).read j = m.read j := by
  have hne : i.toNat ≠ j.toNat := fun e => h (BitVec.eq_of_toNat_eq e)
  simp [Memory.read, Memory.write, hne]

/-- A read of any index after a write. -/
theorem Memory.read_write (m : Memory) (i j : Index) (v : Word) :
    (m.write i v).read j = if i = j then v else m.read j := by
  by_cases h : i = j
  · subst h; simp
  · simp [h, Memory.read_write_of_ne m v h]

/-- Memories are equal when every index reads the same. -/
theorem Memory.ext_read {m n : Memory} (h : ∀ i : Index, m.read i = n.read i) : m = n := by
  apply Vector.ext
  intro k hk
  have hi := h (BitVec.ofNat 8 k)
  have hk' : (BitVec.ofNat 8 k).toNat = k := by simp; omega
  simpa [Memory.read, hk'] using hi

@[simp] theorem Memory.wf_eq_true (m : Memory) : m.wf = true := by
  simp [Memory.wf]

/-- Every memory operation keeps the form (R25). -/
theorem Memory.write_wf (m : Memory) (i : Index) (v : Word) (_ : m.wf = true) : (m.write i v).wf = true :=
  Memory.wf_eq_true _

theorem zeroMemory_wf : zeroMemory.wf = true :=
  Memory.wf_eq_true _

@[simp] theorem zeroMemory_read (i : Index) : zeroMemory.read i = 0 := by
  simp [zeroMemory, Memory.read]

/-- Every index is a loop value of `for i in 0..255`. -/
theorem mem_positions (i : Index) : i ∈ positions := by
  simp only [positions, List.mem_map, List.mem_range]
  exact ⟨i.toNat, i.isLt, by simp⟩

theorem positions_length : positions.length = 256 := by
  simp [positions]

theorem groups_length : groups.length = 32 := by
  simp [groups]

/-- Filling a memory in a loop over positions: a position in the loop holds its value, any other is unchanged. -/
theorem Memory.read_foldl_write (f : Index → Word) (ps : List Index) (m : Memory) (j : Index) :
    (ps.foldl (fun m t => m.write t (f t)) m).read j = if j ∈ ps then f j else m.read j := by
  induction ps generalizing m with
  | nil => simp
  | cons p ps ih =>
    simp only [List.foldl_cons, ih, Memory.read_write, List.mem_cons]
    by_cases hj : j ∈ ps
    · simp [hj]
    · by_cases hp : p = j
      · simp [hp]
      · simp [hj, hp, Ne.symm hp]

end Sys2Proof.Machine
end

