-- ==== Sys2Proof/Laws/Engine.lean ====
section
/-! SUPPORT. What the procedures of the engine leave unchanged and what they always write: one lemma per procedure and
field, and DRAW in the terms the statements use. -/

namespace Sys2Proof.Machine

namespace Engine

/-! ## One step of the refill round, and the loop -/

@[simp] theorem refillStep_rc (e : Engine) (p : Index) : (e.refillStep p).rc = e.rc := rfl
@[simp] theorem refillStep_mix (e : Engine) (p : Index) : (e.refillStep p).mix = e.mix := rfl
@[simp] theorem refillStep_cnt (e : Engine) (p : Index) : (e.refillStep p).cnt = e.cnt := rfl

/-- The word a step writes to the output buffer is the new `rb` (R121, step 5). -/
@[simp] theorem refillStep_rsl (e : Engine) (p : Index) :
    (e.refillStep p).rsl = e.rsl.write p (e.refillStep p).rb := rfl

/-- A step writes only the word at its own position of `mem` (R121, step 4). -/
theorem refillStep_mem_of_ne (e : Engine) {p q : Index} (h : p ≠ q) :
    (e.refillStep p).mem.read q = e.mem.read q := by
  simp [refillStep, Memory.read_write, h]

theorem foldl_refillStep_frame (ps : List Index) (e : Engine) :
    (ps.foldl refillStep e).rc = e.rc ∧ (ps.foldl refillStep e).mix = e.mix ∧
      (ps.foldl refillStep e).cnt = e.cnt := by
  induction ps generalizing e with
  | nil => simp
  | cons p ps ih => simpa using ih (e.refillStep p)

/-! ## The refill round -/

/-- The refill round: count it, fold the count into `rb`, run the 256 steps, set the counter (R121). -/
theorem isaac_eq (e : Engine) :
    e.isaac = { positions.foldl refillStep { e with rc := e.rc + 1, rb := e.rb + (e.rc + 1) } with cnt := 255 } := by
  unfold isaac; rfl

@[simp] theorem isaac_cnt (e : Engine) : e.isaac.cnt = 255 := by
  simp [isaac]

@[simp] theorem isaac_rc (e : Engine) : e.isaac.rc = e.rc + 1 := by
  simp [isaac, foldl_refillStep_frame]

@[simp] theorem isaac_mix (e : Engine) : e.isaac.mix = e.mix := by
  simp [isaac, foldl_refillStep_frame]

theorem foldl_refillStep_withCnt (ps : List Index) (e : Engine) (c : Fin 257) :
    ps.foldl refillStep { e with cnt := c } = { ps.foldl refillStep e with cnt := c } := by
  induction ps generalizing e with
  | nil => rfl
  | cons p ps ih =>
    have hp : { e with cnt := c }.refillStep p = { e.refillStep p with cnt := c } := rfl
    rw [List.foldl_cons, List.foldl_cons, hp, ih]

/-- The refill round does not read the counter (R121). -/
@[simp] theorem isaac_withCnt (e : Engine) (c : Fin 257) : { e with cnt := c }.isaac = e.isaac := by
  simp only [isaac, foldl_refillStep_withCnt positions { e with rc := e.rc + 1, rb := e.rb + (e.rc + 1) } c]

/-! ## RANDINIT -/

theorem foldGroup_frame (e : Engine) (m : Memory) (i : Index) :
    (e.foldGroup m i).ra = e.ra ∧ (e.foldGroup m i).rb = e.rb ∧ (e.foldGroup m i).rc = e.rc ∧
      (e.foldGroup m i).rsl = e.rsl ∧ (e.foldGroup m i).cnt = e.cnt := ⟨rfl, rfl, rfl, rfl, rfl⟩

/-- A pass changes `s0..s7` and `mem` only (R104). -/
theorem foldl_foldGroup_frame (source : Engine → Memory) (is : List Index) (e : Engine) :
    (is.foldl (fun e i => e.foldGroup (source e) i) e).ra = e.ra ∧
      (is.foldl (fun e i => e.foldGroup (source e) i) e).rb = e.rb ∧
      (is.foldl (fun e i => e.foldGroup (source e) i) e).rc = e.rc ∧
      (is.foldl (fun e i => e.foldGroup (source e) i) e).rsl = e.rsl ∧
      (is.foldl (fun e i => e.foldGroup (source e) i) e).cnt = e.cnt := by
  induction is generalizing e with
  | nil => simp
  | cons i is ih => simpa [foldGroup_frame] using ih (e.foldGroup (source e) i)

@[simp] theorem passOne_rc (e : Engine) : e.passOne.rc = e.rc :=
  (foldl_foldGroup_frame (·.rsl) groups e).2.2.1

@[simp] theorem passTwo_rc (e : Engine) : e.passTwo.rc = e.rc :=
  (foldl_foldGroup_frame (·.mem) groups e).2.2.1

/-- RANDINIT ends with a refill round and the counter at 256 (R105). -/
theorem randinit_eq (e : Engine) :
    e.randinit =
      { ({ e with mix := MixRegs.setUp, ra := 0, rb := 0, rc := 0 } : Engine).passOne.passTwo.isaac with
        cnt := 256 } := by
  unfold randinit; rfl

@[simp] theorem randinit_cnt (e : Engine) : e.randinit.cnt = 256 := by
  rw [randinit_eq]

@[simp] theorem randinit_rc (e : Engine) : e.randinit.rc = 1 := by
  simp [randinit_eq]

theorem randinit_afterRefill (e : Engine) : e.randinit.AfterRefill :=
  ⟨_, 256, randinit_eq e⟩

@[simp] theorem seeded_cnt (e : Engine) (seed : List Word) : (e.seeded seed).cnt = 256 :=
  randinit_cnt _

@[simp] theorem seeded_rc (e : Engine) (seed : List Word) : (e.seeded seed).rc = 1 :=
  randinit_rc _

/-! ## DRAW -/

theorem advance_of_zero {e : Engine} (h : e.cnt = 0) : e.advance = e.isaac := by
  simp [advance, h]

theorem advance_of_ne_zero {e : Engine} (h : e.cnt ≠ 0) :
    e.advance =
      { e with cnt := ⟨e.cnt.val - 1, Nat.lt_of_le_of_lt (Nat.sub_le _ _) e.cnt.isLt⟩ } := by
  simp [advance, h]

@[simp] theorem advance_mix (e : Engine) : e.advance.mix = e.mix := by
  by_cases h : e.cnt = 0
  · simp [advance_of_zero h]
  · simp [advance_of_ne_zero h]

/-- After a draw the counter is an index into `rsl` (R24, R52). -/
theorem advance_cnt_le (e : Engine) : e.advance.cnt.val ≤ 255 := by
  by_cases h : e.cnt = 0
  · rw [advance_of_zero h, isaac_cnt]; exact Nat.le_refl 255
  · have := e.cnt.isLt
    simp only [advance_of_ne_zero h]
    omega

theorem advance_afterRefill {e : Engine} (h : e.AfterRefill) : e.advance.AfterRefill := by
  obtain ⟨before, c, rfl⟩ := h
  by_cases h0 : c = 0
  · refine ⟨before.isaac, 255, ?_⟩
    rw [advance_of_zero (e := { before.isaac with cnt := c }) h0, isaac_withCnt]
    rw [← isaac_cnt before.isaac]
  · refine ⟨before, ⟨c.val - 1, Nat.lt_of_le_of_lt (Nat.sub_le _ _) c.isLt⟩, ?_⟩
    generalize before.isaac = b
    exact advance_of_ne_zero (e := { b with cnt := c }) h0

@[simp] theorem draw_snd (e : Engine) : e.draw.2 = e.advance := rfl

theorem draw_fst (e : Engine) : e.draw.1 = e.advance.rsl.read (BitVec.ofNat 8 e.advance.cnt.val) := rfl

theorem draw_eq (e : Engine) : e.draw = (e.nthDraw 1, e.advance) := rfl

@[simp] theorem afterDraws_zero (e : Engine) : e.afterDraws 0 = e := rfl

@[simp] theorem afterDraws_succ (e : Engine) (d : Nat) : e.afterDraws (d + 1) = e.advance.afterDraws d := rfl

theorem afterDraws_add (e : Engine) (c d : Nat) : e.afterDraws (c + d) = (e.afterDraws c).afterDraws d := by
  induction c generalizing e with
  | zero => simp
  | succ c ih => rw [Nat.succ_add]; exact ih e.advance

theorem afterDraws_succ' (e : Engine) (d : Nat) : e.afterDraws (d + 1) = (e.afterDraws d).advance :=
  afterDraws_add e d 1

/-- The draws after `c` draws are the later draws. -/
theorem nthDraw_afterDraws (e : Engine) (c d : Nat) (h : 1 ≤ d) :
    (e.afterDraws c).nthDraw d = e.nthDraw (c + d) := by
  simp only [nthDraw, ← afterDraws_add]
  congr 3
  omega

/-- A drawing loop only takes draws: its words are the next draws in order, and its engine state is the one after
them. -/
theorem drawMany_eq (count : Nat) (e : Engine) :
    e.drawMany count = ((List.range count).map fun j => e.nthDraw (j + 1), e.afterDraws count) := by
  induction count generalizing e with
  | zero => rfl
  | succ count ih =>
    have hrest : ∀ j, e.advance.nthDraw (j + 1) = e.nthDraw (j + 1 + 1) := fun j => by
      have := nthDraw_afterDraws e 1 (j + 1) (by omega)
      simpa [Nat.add_comm, Nat.add_left_comm] using this
    simp only [drawMany, draw_eq, ih, List.range_succ_eq_map, List.map_cons, List.map_map,
      Function.comp_def, hrest, afterDraws_succ, Nat.succ_eq_add_one, Nat.zero_add]

theorem afterDraws_mix (e : Engine) (d : Nat) : (e.afterDraws d).mix = e.mix := by
  induction d generalizing e with
  | zero => rfl
  | succ d ih => simp [ih]

theorem afterDraws_afterRefill {e : Engine} (h : e.AfterRefill) (d : Nat) : (e.afterDraws d).AfterRefill := by
  induction d generalizing e with
  | zero => exact h
  | succ d ih => exact ih (advance_afterRefill h)

/-! ## The loops of the statements, one turn at a time -/

@[simp] theorem afterSteps_zero (e : Engine) : e.afterSteps 0 = e := rfl

theorem afterSteps_succ (e : Engine) (k : Nat) :
    e.afterSteps (k + 1) = (e.afterSteps k).refillStep (BitVec.ofNat 8 k) := by
  simp [afterSteps, List.range_succ]

@[simp] theorem afterGroupsOne_zero (e : Engine) : e.afterGroupsOne 0 = e := rfl

theorem afterGroupsOne_succ (e : Engine) (g : Nat) :
    e.afterGroupsOne (g + 1) =
      (e.afterGroupsOne g).foldGroup (e.afterGroupsOne g).rsl (BitVec.ofNat 8 (8 * g)) := by
  simp [afterGroupsOne, List.range_succ]

@[simp] theorem afterGroupsTwo_zero (e : Engine) : e.afterGroupsTwo 0 = e := rfl

theorem afterGroupsTwo_succ (e : Engine) (g : Nat) :
    e.afterGroupsTwo (g + 1) =
      (e.afterGroupsTwo g).foldGroup (e.afterGroupsTwo g).mem (BitVec.ofNat 8 (8 * g)) := by
  simp [afterGroupsTwo, List.range_succ]

end Engine

end Sys2Proof.Machine
end

