-- ==== Sys2Proof/Laws/State.lean ====
section
/-! SUPPORT. One lemma per field per update of the state: what `reply`, `raise`, `finish` and `offer` leave in each
field, so that no later proof unfolds a record update. -/

namespace Sys2Proof.Machine

@[simp] theorem State.reply_engine (s : State) (st : Status) (p : List Word) : (s.reply st p).engine = s.engine := rfl
@[simp] theorem State.reply_phase (s : State) (st : Status) (p : List Word) : (s.reply st p).phase = s.phase := rfl
@[simp] theorem State.reply_cfgBits (s : State) (st : Status) (p : List Word) : (s.reply st p).cfgBits = s.cfgBits := rfl
@[simp] theorem State.reply_cmd (s : State) (st : Status) (p : List Word) : (s.reply st p).cmd = s.cmd := rfl
@[simp] theorem State.reply_resp (s : State) (st : Status) (p : List Word) : (s.reply st p).resp = s.resp ++ st.word :: p := rfl
@[simp] theorem State.reply_tailMode (s : State) (st : Status) (p : List Word) : (s.reply st p).tailMode = s.tailMode := rfl
@[simp] theorem State.reply_platform (s : State) (st : Status) (p : List Word) : (s.reply st p).platform = s.platform := rfl
@[simp] theorem State.reply_entropy (s : State) (st : Status) (p : List Word) : (s.reply st p).entropy = s.entropy := rfl

@[simp] theorem State.raise_engine (s : State) (st : Status) : (s.raise st).engine = s.engine := rfl
@[simp] theorem State.raise_phase (s : State) (st : Status) : (s.raise st).phase = s.phase := rfl
@[simp] theorem State.raise_cfgBits (s : State) (st : Status) : (s.raise st).cfgBits = s.cfgBits := rfl
@[simp] theorem State.raise_cmd (s : State) (st : Status) : (s.raise st).cmd = s.cmd := rfl
@[simp] theorem State.raise_resp (s : State) (st : Status) : (s.raise st).resp = s.resp ++ [st.word] := rfl
@[simp] theorem State.raise_tailMode (s : State) (st : Status) : (s.raise st).tailMode = s.tailMode := rfl
@[simp] theorem State.raise_platform (s : State) (st : Status) : (s.raise st).platform = s.platform := rfl
@[simp] theorem State.raise_entropy (s : State) (st : Status) : (s.raise st).entropy = s.entropy := rfl

@[simp] theorem State.finish_engine (s : State) (e : Engine) (p : List Word) : (s.finish e p).engine = e := rfl
@[simp] theorem State.finish_phase (s : State) (e : Engine) (p : List Word) : (s.finish e p).phase = s.phase := rfl
@[simp] theorem State.finish_cfgBits (s : State) (e : Engine) (p : List Word) : (s.finish e p).cfgBits = s.cfgBits := rfl
@[simp] theorem State.finish_cmd (s : State) (e : Engine) (p : List Word) : (s.finish e p).cmd = s.cmd := rfl
@[simp] theorem State.finish_resp (s : State) (e : Engine) (p : List Word) : (s.finish e p).resp = s.resp ++ Status.ok.word :: p := rfl
@[simp] theorem State.finish_tailMode (s : State) (e : Engine) (p : List Word) : (s.finish e p).tailMode = s.tailMode := rfl
@[simp] theorem State.finish_platform (s : State) (e : Engine) (p : List Word) : (s.finish e p).platform = s.platform := rfl
@[simp] theorem State.finish_entropy (s : State) (e : Engine) (p : List Word) : (s.finish e p).entropy = s.entropy := rfl

@[simp] theorem State.offer_engine (s : State) (ws : List Word) : (s.offer ws).engine = s.engine := rfl
@[simp] theorem State.offer_phase (s : State) (ws : List Word) : (s.offer ws).phase = s.phase := rfl
@[simp] theorem State.offer_cfgBits (s : State) (ws : List Word) : (s.offer ws).cfgBits = s.cfgBits := rfl
@[simp] theorem State.offer_cmd (s : State) (ws : List Word) : (s.offer ws).cmd = ws ++ s.cmd := rfl
@[simp] theorem State.offer_resp (s : State) (ws : List Word) : (s.offer ws).resp = s.resp := rfl
@[simp] theorem State.offer_tailMode (s : State) (ws : List Word) : (s.offer ws).tailMode = s.tailMode := rfl
@[simp] theorem State.offer_platform (s : State) (ws : List Word) : (s.offer ws).platform = s.platform := rfl
@[simp] theorem State.offer_entropy (s : State) (ws : List Word) : (s.offer ws).entropy = s.entropy := rfl

@[simp] theorem State.isReady_iff (s : State) : s.isReady = true ↔ s.phase = .ready := by
  unfold State.isReady
  cases s.phase <;> simp

@[simp] theorem Status.ok_word : Status.ok.word = 0 := by decide

/-- Status words tell the statuses apart (R75). -/
theorem Status.word_injective (a b : Status) (h : a.word = b.word) : a = b := by
  revert h
  cases a <;> cases b <;> decide

end Sys2Proof.Machine
end

