-- ==== Sys2Proof/Laws/Ops.lean ====
section
/-! SUPPORT. What the shared operations of a command can do: the readiness check, the fetch of a command, and the
inversion of a step. -/

namespace Sys2Proof.Machine

theorem State.whenReady_of_ready {s : State} (h : s.phase = .ready) (k : Host.Outcome State Fault Refusal) :
    s.whenReady k = k := by
  simp [State.whenReady, h]

theorem State.whenReady_of_unseeded {s : State} (h : s.phase = .unseeded) (k : Host.Outcome State Fault Refusal) :
    s.whenReady k = .next (s.raise .notSeeded) := by
  simp [State.whenReady, h]

/-- Everything the readiness check can answer with a next state: the command's own, or `NotSeeded`. -/
theorem State.whenReady_next {s t : State} {k : Host.Outcome State Fault Refusal} (h : s.whenReady k = .next t) :
    (s.phase = .ready ∧ k = .next t) ∨ (s.phase = .unseeded ∧ t = s.raise .notSeeded) := by
  cases hp : s.phase
  · rw [State.whenReady_of_unseeded hp] at h
    cases h
    exact .inr ⟨rfl, rfl⟩
  · rw [State.whenReady_of_ready hp] at h
    exact .inl ⟨rfl, h⟩

/-- The three things a fetch can give. -/
theorem fetch_cases (s : State) :
    (∃ i rest, decode s.cmd = .ok (i, rest) ∧ fetch s = .command i { s with cmd := rest }) ∨
      (decode s.cmd = .error .incomplete ∧ fetch s = .settled s) ∨
      (∃ err, err ≠ .incomplete ∧ decode s.cmd = .error err ∧
        fetch s = .settled ({ s with cmd := s.cmd.tail }.raise .illegalCommand)) := by
  unfold fetch
  cases hd : decode s.cmd with
  | ok p => exact .inl ⟨p.1, p.2, rfl, rfl⟩
  | error err =>
    cases err with
    | incomplete => exact .inr (.inl ⟨rfl, rfl⟩)
    | reservedCommandBits => exact .inr (.inr ⟨_, by simp, rfl, rfl⟩)
    | reservedOpcode => exact .inr (.inr ⟨_, by simp, rfl, rfl⟩)
    | reservedOptionBits => exact .inr (.inr ⟨_, by simp, rfl, rfl⟩)

/-- A step that answers a next state executed a command, idled, or answered an illegal command word. -/
theorem step_cases {s t : State} (h : step s = .next t) :
    (∃ i rest, decode s.cmd = .ok (i, rest) ∧ exec i { s with cmd := rest } = .next t) ∨
      t = s ∨ t = ({ s with cmd := s.cmd.tail } : State).raise .illegalCommand := by
  unfold step at h
  rcases fetch_cases s with ⟨i, rest, hd, hf⟩ | ⟨-, hf⟩ | ⟨err, -, -, hf⟩ <;> rw [hf] at h
  · exact .inl ⟨i, rest, hd, h⟩
  · cases h; exact .inr (.inl rfl)
  · cases h; exact .inr (.inr rfl)

end Sys2Proof.Machine
end

