-- ==== Sys2Proof/Laws/Provider.lean ====
section
/-! SUPPORT. What one request of the entropy provider can do. -/

namespace Sys2Proof.Machine

@[simp] theorem EntropyPort.note_replies (q : EntropyPort) (a : Action) : (q.note a).replies = q.replies := rfl
@[simp] theorem EntropyPort.note_taken (q : EntropyPort) (a : Action) : (q.note a).taken = q.taken := rfl
@[simp] theorem EntropyPort.note_log (q : EntropyPort) (a : Action) : (q.note a).log = q.log ++ [a] := rfl

/-- Taking a reply logs nothing. -/
@[simp] theorem EntropyPort.take_log (q : EntropyPort) : q.take.2.log = q.log := by
  unfold EntropyPort.take
  split <;> rfl

@[simp] theorem EntropyPort.take_taken (q : EntropyPort) : q.take.2.taken = q.taken + 1 := by
  unfold EntropyPort.take
  split <;> rfl

theorem EntropyPort.take_of_listed {q : EntropyPort} {r : Reply} {rs : List Reply} (h : q.replies = r :: rs) :
    q.take = (r, { q with replies := rs, taken := q.taken + 1 }) := by
  simp [EntropyPort.take, h]

/-- With no reply listed, the reply is the free one (R150). -/
theorem EntropyPort.take_of_free {q : EntropyPort} (h : q.replies = []) :
    q.take.1 = Config.freeReply q.taken := by
  simp [EntropyPort.take, h]

/-- A reply that must bring `n` bytes brings exactly `n` (R150). -/
theorem replyExactly_length {n : Nat} {r : Reply} {bs : List Byte} (h : replyExactly n r = some bs) :
    bs.length = n := by
  cases r with
  | failed => simp [replyExactly] at h
  | ok bytes =>
    simp only [replyExactly] at h
    split at h
    · cases h; simpa
    · cases h

/-- A read brings at most what it asked for (R152). -/
theorem replyAtMost_length (n : Nat) (r : Reply) : (replyAtMost n r).length ≤ n := by
  cases r <;> simp [replyAtMost]

end Sys2Proof.Machine
end

