-- ==== Sys2Proof/Laws/Sampling.lean ====
section
/-! SUPPORT. What the rejection loop can do: it takes draws only, rejects all but the last, and gives the last. -/

namespace Sys2Proof.Machine

/-- One turn of the rejection loop (R193). -/
theorem Engine.sampleWithin_succ (range d turns : Nat) (e : Engine) :
    e.sampleWithin range d (turns + 1) =
      if (e.nthDraw 1).toNat % d < range then some ((e.nthDraw 1).toNat % d, e.advance)
      else e.advance.sampleWithin range d turns := rfl

/-- A loop that ends within some turns has rejected every draw before the one it accepts. -/
theorem Engine.sampleWithin_some {range d turns r : Nat} {e e' : Engine}
    (h : e.sampleWithin range d turns = some (r, e')) :
    ∃ k, k < turns ∧ (∀ j, 1 ≤ j → j ≤ k → ¬ (e.nthDraw j).toNat % d < range) ∧
      r = (e.nthDraw (k + 1)).toNat % d ∧ r < range ∧ e' = e.afterDraws (k + 1) := by
  induction turns generalizing e with
  | zero => simp [Engine.sampleWithin] at h
  | succ turns ih =>
    rw [Engine.sampleWithin_succ] at h
    by_cases hlt : (e.nthDraw 1).toNat % d < range
    · rw [if_pos hlt] at h
      obtain ⟨rfl, rfl⟩ := Prod.mk.inj (Option.some.inj h)
      exact ⟨0, by omega, fun j h1 h0 => by omega, rfl, hlt, rfl⟩
    · have hge := hlt
      rw [if_neg hlt] at h
      obtain ⟨k, hk, hrej, hr, hlt', he⟩ := ih h
      have hnext : ∀ j, 1 ≤ j → e.advance.nthDraw j = e.nthDraw (j + 1) := fun j hj => by
        have := Engine.nthDraw_afterDraws e 1 j hj
        simpa [Nat.add_comm] using this
      refine ⟨k + 1, by omega, fun j h1 hj => ?_, by rw [hr, hnext _ (by omega)], hlt', he⟩
      obtain rfl | hj1 := Nat.eq_or_lt_of_le h1
      · exact hge
      · have := hrej (j - 1) (by omega) (by omega)
        rwa [hnext _ (by omega), Nat.sub_add_cancel h1] at this

/-- A loop that does not end within some turns has rejected them all. -/
theorem Engine.sampleWithin_none {range d turns : Nat} {e : Engine} (h : e.sampleWithin range d turns = none) :
    ∀ j, 1 ≤ j → j ≤ turns → ¬ (e.nthDraw j).toNat % d < range := by
  induction turns generalizing e with
  | zero => intro j h1 h0; omega
  | succ turns ih =>
    rw [Engine.sampleWithin_succ] at h
    by_cases hge : (e.nthDraw 1).toNat % d < range
    · rw [if_pos hge] at h
      exact absurd h (by simp)
    · rw [if_neg hge] at h
      intro j h1 hj
      obtain rfl | hj1 := Nat.eq_or_lt_of_le h1
      · exact hge
      · have := ih h (j - 1) (by omega) (by omega)
        have hnext := Engine.nthDraw_afterDraws e 1 (j - 1) (by omega)
        rw [Engine.afterDraws_succ, Engine.afterDraws_zero] at hnext
        rwa [hnext, show 1 + (j - 1) = j by omega] at this

/-- The loop over `count` values peels its first value off. -/
theorem Engine.samples_succ (range d count : Nat) (e : Engine) :
    e.samples range d (count + 1) =
      (e.sample range d).bind fun p => (p.2.samples range d count).map fun q => (p.1 :: q.1, q.2) := by
  simp only [Engine.samples]
  cases e.sample range d with
  | none => rfl
  | some p => cases h : p.2.samples range d count <;> simp [h]

end Sys2Proof.Machine
end

