-- ==== Sys2Proof/Laws/Exec.lean ====
section
/-! SUPPORT. What each command can answer: one inversion lemma per kind of command, so that later proofs do not unfold
the meanings. -/

namespace Sys2Proof.Machine

/-- A byte string takes draws only (R126, R175). -/
theorem Engine.tail_draws (e : Engine) (mode : TailMode) (r : Nat) :
    ∃ d, (e.tail mode r).2 = e.afterDraws d := by
  unfold Engine.tail
  by_cases h0 : r = 0
  · exact ⟨0, by rw [if_pos h0]; rfl⟩
  · rw [if_neg h0]
    by_cases h1 : r % 2 = 1
    · by_cases h2 : r = 3 ∧ mode = .separate
      · exact ⟨2, by simp [h2]⟩
      · exact ⟨1, by simp [h1, h2]⟩
    · exact ⟨1, by simp [h1]⟩

theorem Engine.emitBytes_draws (e : Engine) (mode : TailMode) (n : Nat) :
    ∃ d, (e.emitBytes mode n).2 = e.afterDraws d := by
  obtain ⟨d, hd⟩ := ((e.drawMany (n / 4)).2).tail_draws mode (n % 4)
  refine ⟨n / 4 + d, ?_⟩
  rw [Engine.afterDraws_add]
  simpa [Engine.emitBytes, Engine.drawMany_eq] using hd

/-- A sampled value is below the range, and sampling takes draws only (R193). -/
theorem Engine.sample_draws {range d r : Nat} {e e' : Engine} (h : e.sample range d = some (r, e')) :
    r < range ∧ ∃ k, e' = e.afterDraws k := by
  obtain ⟨k, -, -, -, hlt, he⟩ := Engine.sampleWithin_some h
  exact ⟨hlt, k + 1, he⟩

theorem Engine.samples_draws {range d count : Nat} {e e' : Engine} {rs : List Nat}
    (h : e.samples range d count = some (rs, e')) :
    rs.length = count ∧ (∀ r ∈ rs, r < range) ∧ ∃ k, e' = e.afterDraws k := by
  induction count generalizing e rs with
  | zero =>
    obtain ⟨rfl, rfl⟩ := Prod.mk.inj (Option.some.inj h)
    exact ⟨rfl, by simp, 0, rfl⟩
  | succ count ih =>
    rw [Engine.samples_succ] at h
    obtain ⟨⟨r, e1⟩, hs, h⟩ := Option.bind_eq_some_iff.mp h
    obtain ⟨⟨rs', e2⟩, hss, h⟩ := Option.map_eq_some_iff.mp h
    obtain ⟨rfl, rfl⟩ := Prod.mk.inj h
    obtain ⟨hlt, k, rfl⟩ := Engine.sample_draws hs
    obtain ⟨hlen, hall, k', rfl⟩ := ih hss
    refine ⟨by simp [hlen], ?_, k + k', (Engine.afterDraws_add _ _ _).symm⟩
    intro x hx
    rcases List.mem_cons.mp hx with rfl | hx
    · exact hlt
    · exact hall x hx

/-- A drawing command answers an error and changes nothing else, or in phase `READY` takes draws and answers `OK`. -/
theorem exec_drawing_cases {i : Instr} {s t : State} (hi : isDrawing i = true) (h : exec i s = .next t) :
    (∃ st, st ≠ .ok ∧ t = s.raise st) ∨
      (s.phase = .ready ∧ ∃ d payload, t = s.finish (s.engine.afterDraws d) payload) := by
  cases i with
  | construct _ _ => simp [isDrawing] at hi
  | seed _ => simp [isDrawing] at hi
  | next =>
    rcases State.whenReady_next h with ⟨hr, h⟩ | ⟨-, rfl⟩
    · cases h; exact .inr ⟨hr, 1, _, rfl⟩
    · exact .inl ⟨_, by simp, rfl⟩
  | bytes n =>
    rcases State.whenReady_next h with ⟨hr, h⟩ | ⟨-, rfl⟩
    · cases h
      obtain ⟨d, hd⟩ := s.engine.emitBytes_draws s.tailMode n.toNat
      exact .inr ⟨hr, d, _, by rw [← hd]⟩
    · exact .inl ⟨_, by simp, rfl⟩
  | hex n =>
    rcases State.whenReady_next h with ⟨hr, h⟩ | ⟨-, rfl⟩
    · cases h
      obtain ⟨d, hd⟩ := s.engine.emitBytes_draws s.tailMode n.toNat
      exact .inr ⟨hr, d, _, by rw [← hd]⟩
    · exact .inl ⟨_, by simp, rfl⟩
  | strfrom bag n =>
    rcases State.whenReady_next h with ⟨hr, h⟩ | ⟨-, rfl⟩
    · split at h
      · cases h; exact .inl ⟨_, by simp, rfl⟩
      · split at h
        · cases h
        · rename_i hs
          cases h
          obtain ⟨-, -, d, rfl⟩ := Engine.samples_draws hs
          exact .inr ⟨hr, d, _, rfl⟩
    · exact .inl ⟨_, by simp, rfl⟩
  | ranged range count =>
    rcases State.whenReady_next h with ⟨hr, h⟩ | ⟨-, rfl⟩
    · split at h
      · cases h; exact .inl ⟨_, by simp, rfl⟩
      · split at h
        · cases h; exact .inl ⟨_, by simp, rfl⟩
        · split at h
          · cases h
          · rename_i hs
            cases h
            obtain ⟨-, -, d, rfl⟩ := Engine.samples_draws hs
            exact .inr ⟨hr, d, _, rfl⟩
    · exact .inl ⟨_, by simp, rfl⟩

/-- SEED answers `InvalidSeed` and changes nothing else, or seeds the engine. -/
theorem execSeed_cases (words : List Word) (s : State) :
    (256 < words.length ∧ execSeed words s = .next (s.raise .invalidSeed)) ∨
      (words.length ≤ 256 ∧ execSeed words s = .next ({ s with phase := .ready }.finish (s.engine.seeded words) [])) := by
  by_cases h : 256 < words.length
  · exact .inl ⟨h, by simp [execSeed, seedWordsMax, h]⟩
  · exact .inr ⟨by omega, by simp [execSeed, seedWordsMax, h]⟩

/-- CONSTRUCT refuses its `bits`, or does what the provider's answer calls for. -/
theorem execConstruct_cases (bits : Option Word) (nonblocking : Option Bool) (s : State) :
    (validBits (bitsOperand bits) = false ∧ execConstruct bits nonblocking s = .next (s.raise .invalidOption)) ∨
      (validBits (bitsOperand bits) = true ∧
        ∃ answer q,
          provide s.platform (nonblockingOperand nonblocking) (seedByteCount (bitsOperand bits)) s.entropy =
            (answer, q) ∧
          execConstruct bits nonblocking s = .next (s.constructed (bitsOperand bits) (answer, q))) := by
  cases h : validBits (bitsOperand bits)
  · exact .inl ⟨rfl, by simp [execConstruct, h]⟩
  · refine .inr ⟨rfl, (provide s.platform (nonblockingOperand nonblocking) (seedByteCount (bitsOperand bits)) s.entropy).1,
      (provide s.platform (nonblockingOperand nonblocking) (seedByteCount (bitsOperand bits)) s.entropy).2, rfl, ?_⟩
    simp [execConstruct, h]

end Sys2Proof.Machine
end

