-- ==== Sys2Proof/Laws/PerInstr.lean ====
section
/-! SUPPORT. Statements made of every command as a term, one lemma per constructor. -/

namespace Sys2Proof.Laws.EncodeFraming

/-- The words of a well-formed command are as many as its command word and first argument word say (R83). -/
def Statement (i : Instr) : Prop :=
  wellFormed i = true → (encode i).length = commandLength ((encode i).getD 0 0) ((encode i).getD 1 0)

theorem construct (bits : Option Word) (nonblocking : Option Bool) : Statement (.construct bits nonblocking) := by
  intro _
  cases bits <;> rcases nonblocking with _ | _ | _ <;> simp [encode, commandLength, optionWord]

theorem seed (words : List Word) : Statement (.seed words) := by
  intro h
  have hk : words.length < 2 ^ 32 := by simpa [wellFormed] using h
  simp [encode, commandLength]
  omega

theorem next : Statement .next := by
  intro _; simp [encode, commandLength]

theorem bytes (n : Word) : Statement (.bytes n) := by
  intro _; simp [encode, commandLength]

theorem hex (n : Word) : Statement (.hex n) := by
  intro _; simp [encode, commandLength]

theorem strfrom (bag : List Byte) (n : Word) : Statement (.strfrom bag n) := by
  intro h
  have hk : bag.length < 2 ^ 32 := by simpa [wellFormed] using h
  simp [encode, commandLength, bagWords, Machine.packBytes_length]
  omega

theorem ranged (range : BitVec 64) (count : Word) : Statement (.ranged range count) := by
  intro _; simp [encode, commandLength]

end Sys2Proof.Laws.EncodeFraming
end

