-- ==== Sys2Proof/Tests/Slice0.lean ====
section
/-! SUPPORT. The model's own tests. Every expected value is one that spec/ writes out (spec/30_encoding.md,
spec/95_test_vectors.md); a `witness_` theorem shows states and operands that meet the hypotheses of the obligation it is
named after, each clause at the ends of its range. -/

namespace Sys2Proof.Machine.Tests

open Sys2Proof Sys2Proof.Machine

/-! ## Small states -/

/-- The response words of a step, if it has a next state. -/
def answer : Host.Outcome State Fault Refusal → Option (List Word)
  | .next t => some t.resp
  | .fault _ => none
  | .refused _ => none

/-- A field of the next state. -/
def after {α : Type} (f : State → α) : Host.Outcome State Fault Refusal → Option α
  | .next t => some (f t)
  | .fault _ => none
  | .refused _ => none

/-- A step whose answer is known has a next state. -/
theorem next_of_answer {o : Host.Outcome State Fault Refusal} {r : List Word} (h : answer o = some r) :
    ∃ t, o = .next t ∧ t.resp = r := by
  cases o with
  | next t => exact ⟨t, rfl, Option.some.inj h⟩
  | fault _ => cases h
  | refused _ => cases h

/-- The first eight words of the zero-seed stream (V3) and, of the three after them, the low four bits (V13), where the
output buffer holds them. -/
def stream : Memory :=
  [(255, 0x182600f3), (254, 0x300b4a8d), (253, 0x301b6622), (252, 0xb08acd21), (251, 0x296fd679), (250, 0x995206e9),
    (249, 0xb3ffa8b5), (248, 0x0fc99c24), (247, 15), (246, 15), (245, 2)].foldl
    (fun m (p : Index × Word) => m.write p.1 p.2) zeroMemory

/-- A block in phase `READY` with those words in its output buffer and the counter at `cnt`. -/
def ready (cnt : Fin 257) : State :=
  { State.reset with phase := .ready, engine := { State.reset.engine with rsl := stream, cnt := cnt } }

/-- A block after reset on a platform, with replies of the environment. -/
def platform (osApi : Bool) (egd : List EgdPath) (nb b : Option String) (bsd : Bool) (replies : List Reply) : State :=
  { State.reset with
    platform := { osApiAvailable := osApi, egdSockets := egd, nbDevicePath := nb, bDevicePath := b,
                  blockingDevIsNonblocking := bsd }
    entropy := { State.reset.entropy with replies := replies } }

/-! ## WellFormed and the decoder -/

theorem test_wellFormed_refuses_a_seed_of_two_to_the_32_words :
    wellFormed (.seed (List.replicate (2 ^ 32) 0)) = false := by
  rw [wellFormed, List.length_replicate]; rfl

theorem test_wellFormed_refuses_a_bag_of_two_to_the_32_octets (n : Word) :
    wellFormed (.strfrom (List.replicate (2 ^ 32) 0) n) = false := by
  rw [wellFormed, List.length_replicate]; rfl

/-- R76, R84. -/
theorem test_decode_next : decode [0x00000003, 7] = .ok (.next, [7]) := by decide

/-- R79, the example of spec/30_encoding.md. -/
theorem test_decode_seed :
    decode [0x2, 0x8, 1, 2, 3, 4, 5, 6, 7, 8, 9] = .ok (.seed [1, 2, 3, 4, 5, 6, 7, 8], [9]) := by decide

/-- R77. -/
theorem test_decode_bytes : decode [0x00000004, 0x00000007] = .ok (.bytes 7, []) := by decide

/-- R77. -/
theorem test_decode_hex : decode [0x00000005, 0x00000008] = .ok (.hex 8, []) := by decide

/-- R81: the pad byte of the last bag word is ignored (I23). -/
theorem test_decode_strfrom :
    decode [0x00000006, 0x00000003, 0x00000008, 0xff636261] = .ok (.strfrom [0x61, 0x62, 0x63] 8, []) := by decide

/-- R80: `range = ARG1 * 2^32 + ARG0`. -/
theorem test_decode_ranged :
    decode [0x00000007, 0x00000000, 0x00000001, 0x00000002] = .ok (.ranged 0x100000000 2, []) := by decide

/-- R78, V17: both options, one, and none with `ARG1` ignored. -/
theorem test_decode_construct :
    decode [0x1, 0x3, 0x100] = .ok (.construct (some 256) (some false), []) ∧
      decode [0x1, 0x6, 0] = .ok (.construct none (some true), []) ∧
      decode [0x1, 0x0, 0xdeadbeef] = .ok (.construct none none, []) := by decide

/-- R73, V17, V18: the reserved words, each under its own name. -/
theorem test_decode_refuses_by_name :
    decode [0x00000000] = .error .reservedOpcode ∧ decode [0x00000008] = .error .reservedOpcode ∧
      decode [0x000000ff] = .error .reservedOpcode ∧ decode [0x00000103] = .error .reservedCommandBits ∧
      decode [0x1, 0x8, 0] = .error .reservedOptionBits ∧ decode [0x1, 0x8] = .error .reservedOptionBits ∧
      decode [0x1, 0x1] = .error .incomplete ∧ decode [] = .error .incomplete := by decide

/-- R83: the words of the table's numbering, with operand words of zeros beyond the bits given. -/
theorem test_decodeTableWord :
    decodeTableWord 8 0x03 = some .next ∧ decodeTableWord 64 0x0000000700000004 = some (.bytes 7) ∧
      decodeTableWord 32 0x07 = some (.ranged 0 0) ∧ decodeTableWord 32 0x08 = none := by decide

/-- R84, R85: refused lines: an unknown mnemonic, an unknown option, a number with no room, a missing operand. -/
theorem test_assemble_refuses :
    assemble "draw" = none ∧ assemble "construct size=64" = none ∧ assemble "bytes 4294967296" = none ∧
      assemble "ranged 3" = none := by decide

/-! ## The engine -/

/-- V1, one MIX of eight copies of `GOLDEN`: `s0` and `s7`. -/
theorem test_mix :
    (⟨golden, golden, golden, golden, golden, golden, golden, golden⟩ : MixRegs).stir.s0 = 0x3f879d38 ∧
      (⟨golden, golden, golden, golden, golden, golden, golden, golden⟩ : MixRegs).stir.s7 = 0x11273859 := by
  decide +kernel

/-- V3: the first group of pass 1 over an all-zero seed leaves `mem[0..7]` so. -/
theorem test_randinit_first_group :
    (({ State.reset.engine with mix := MixRegs.setUp } : Engine).foldGroup zeroMemory 0).mem.toList.take 8 =
      [0x06cca0e5, 0x7bcc7892, 0x1ab2de71, 0x2bfc6cb4, 0x55056274, 0xaf9b10f9, 0x13a1c75c, 0x10239bf4] := by
  decide +kernel

/-- The words of `mem` after `seed` that the first four steps of the second refill round read (V5 gives the first four;
the others are what V5's sums make them). -/
def secondRoundWords : List (Index × Word) :=
  [(0, 0x56047a81), (1, 0xd6660599), (2, 0xb0159a4b), (3, 0x1964dc2a), (10, 0x02cff7ed), (89, 0xe8c59569),
    (102, 0x71ce5dd0), (115, 0xa04c6a47), (128, 0xebd212e0), (129, 0x75ffdd9b), (130, 0xbd9ec967), (131, 0xf2bef723),
    (138, 0x0de2e3d4), (146, 0x15a46ad7), (160, 0x50768d28), (176, 0xdc95f925)]

/-- The state in which that round begins its loop (V5). -/
def secondRound : Engine :=
  { State.reset.engine with
    ra := 0x44d22b48, rb := 0x182600f5, rc := 2,
    mem := secondRoundWords.foldl (fun m p => m.write p.1 p.2) zeroMemory }

/-- V5: `ra`, `y` and `rb` after each of the first four steps of the second refill round. -/
theorem test_refill_trace :
    [1, 2, 3, 4].map (fun k => ((secondRound.afterSteps k).ra, (secondRound.afterSteps k).mem.read (BitVec.ofNat 8 (k - 1)),
        (secondRound.afterSteps k).rb)) =
      [(0xed8d3e28, 0x5629cc45, 0xf650e4c8), (0x643ae86b, 0xcc5a2b03, 0xe448e96d),
        (0xb270132e, 0xac5d6772, 0x98db2fb4), (0xa52f9881, 0x40dac022, 0xf5fad54f)] := by decide +kernel

/-- V5: the indices of steps 4 and 5. -/
theorem test_refill_indices :
    [0x56047a81, 0xd6660599, 0xb0159a4b, 0x1964dc2a].map stepFourIndex = [160, 102, 146, 10] ∧
      [0x5629cc45, 0xcc5a2b03, 0xac5d6772, 0x40dac022].map stepFiveIndex = [115, 138, 89, 176] := by decide

/-- The refill round counts itself in `rc` and leaves the counter at 255 (R121, V11), wrapping at `2^32` (R124). -/
theorem test_refill_counts (e : Engine) (h : e.rc = 0xffffffff) : e.isaac.rc = 0 ∧ e.isaac.cnt = 255 := by
  simp [h]

/-- V3b: 257 words are refused, and the block is still `UNSEEDED`. -/
theorem test_seed_of_257_words :
    after (fun t => (t.resp, t.phase)) (execSeed (List.replicate 257 5) State.reset) = some ([6], .unseeded) := by
  decide +kernel

/-- V4: the first draw after seeding returns `rsl[255]` and leaves the counter at 255. -/
theorem test_next :
    after (fun t => (t.resp, t.engine.cnt)) (execNext (ready 256)) = some ([0, 0x182600f3], 255) := by decide +kernel

/-- V5 to V7: the last word of a block is returned with the counter at 1 and no refill. -/
theorem test_next_last_word :
    after (fun t => (t.engine.cnt, t.engine.rc)) (execNext (ready 1)) = some (0, 0) := by decide +kernel

/-- The masks of the barrel shift at each of the four positions (R120). -/
theorem test_barrel :
    barrel 4 0x80000001 = 0x80002001 ∧ barrel 5 0x80000040 = 0x82000041 ∧
      barrel 6 0x40000001 = 0x40000005 ∧ barrel 255 0x80010000 = 0x80018001 := by decide +kernel

/-! ## Bytes and text -/

/-- V9, `bytes 7`, shared: the words and the counter. -/
theorem test_bytes_shared :
    after (fun t => (t.resp, t.engine.cnt)) (execBytes 7 (ready 256)) =
      some ([0, 0x182600f3, 0x008d0b4a], 254) := by decide +kernel

/-- V9, `bytes 7`, separate: the last byte is taken from a third draw. -/
theorem test_bytes_separate :
    after (fun t => (t.resp, t.engine.cnt)) (execBytes 7 { ready 256 with tailMode := .separate }) =
      some ([0, 0x182600f3, 0x00220b4a], 253) := by decide +kernel

/-- V10: after `seed`, `hex 3` returns the text `0026f3`. -/
theorem test_hex : answer (execHex 3 (ready 256)) = some [0, 0x36323030, 0x00003366] := by decide +kernel

/-- X1, X2, X3. -/
theorem test_byte_orders :
    egdCount [0x00, 0x00, 0x10, 0x00] = some 4096 ∧ egdRequest 32 = [0x02, 0x20] ∧
      seedWordsOfBytes [0xef, 0xbe, 0xad, 0xde, 0x00, 0x00, 0x00, 0x80] = [0xdeadbeef, 0x80000000] ∧
      le16 (((0x182600f3 >>> 8) &&& 0xFFFF : Word).setWidth 16) = [0x00, 0x26] := by decide

/-- V10a, S6: `bytes(-3)`, `bytes(3.7)` and `bytes(3)`; a value of `2^32` is refused. -/
theorem test_host_coercion :
    hostLength (-3) = some 3 ∧ hostLength (37 / 10) = some 3 ∧ hostLength 3 = some 3 ∧
      hostLength 4294967296 = none := by decide +kernel

/-! ## Ranged sampling -/

/-- V12. -/
theorem test_divisor :
    [0, 1, 2, 3, 4, 5, 9, 26, 255, 256, 257, 2 ^ 31, 2 ^ 31 + 1, 2 ^ 32, 2 ^ 32 + 1].map divisor =
      [0, 1, 2, 4, 4, 8, 16, 32, 256, 256, 512, 2 ^ 31, 2 ^ 32, 2 ^ 32, 2 ^ 32] := by decide

/-- V13: the first eight values of `ranged 3, 10` with their 11 draws, the first and the ninth and tenth rejected. -/
theorem test_ranged :
    after (fun t => (t.resp, t.engine.cnt)) (execRanged 3 8 (ready 256)) =
      some ([0, 1, 2, 1, 1, 1, 1, 0, 2], 245) := by decide +kernel

/-- V13: `ranged 4294967296, 2` returns the drawn words; `ranged 4294967297, 1` is refused. -/
theorem test_ranged_bounds :
    answer (execRanged 0x100000000 2 (ready 256)) = some [0, 0x182600f3, 0x300b4a8d] ∧
      answer (execRanged 0x100000001 1 (ready 256)) = some [5] := by decide +kernel

/-- V14: `strfrom "abc", 8` returns `bcbbbbac` in 11 draws. -/
theorem test_strfrom :
    after (fun t => (t.resp, t.engine.cnt)) (execStrfrom [0x61, 0x62, 0x63] 8 (ready 256)) =
      some ([0, 0x62626362, 0x63616262], 245) := by decide +kernel

/-- V14, V19: an empty bag in either phase. -/
theorem test_strfrom_empty_bag :
    answer (execStrfrom [] 0 (ready 256)) = some [4] ∧ answer (execStrfrom [] 5 State.reset) = some [0x81] := by
  decide +kernel

/-! ## Construction -/

/-- V16 and program 6: sixteen bytes from the OS API, in one request, seed as `seed 1, 2, 3, 4` does. -/
theorem test_construct :
    ∃ t, execConstruct (some 128) none
        (platform true [] none none false [.ok [1, 0, 0, 0, 2, 0, 0, 0, 3, 0, 0, 0, 4, 0, 0, 0]]) = .next t ∧
      t.resp = [0] ∧ t.cfgBits = 128 ∧ t.entropy.log = [.osRequest 16] ∧
      t.engine = State.reset.engine.seeded [1, 2, 3, 4] :=
  ⟨_, rfl, rfl, rfl, rfl, rfl⟩

/-- V17: `bits` = 16384, -256 and 0 are refused. -/
theorem test_construct_bits :
    answer (execConstruct (some 0x4000) none State.reset) = some [1] ∧
      answer (execConstruct (some 0xffffff00) none State.reset) = some [1] ∧
      answer (execConstruct (some 0) none State.reset) = some [1] := by decide +kernel

/-- V15, the rows of the table below the first. -/
theorem test_selection :
    (let s := platform false [.etcEgdPool] (some "nb") (some "b") false [.ok [0, 0, 0, 0]]
     (selectSource s.platform true s.entropy).1 = some (.nbDevice "nb") ∧
       (selectSource s.platform false s.entropy).1 = some (.egd .etcEgdPool)) ∧
    (let s := platform false [] none (some "b") false []
     (selectSource s.platform true s.entropy).1 = none) ∧
    (let s := platform false [] none (some "b") true []
     (selectSource s.platform true s.entropy).1 = some (.bDevice "b")) := by decide +kernel

/-- V16: a device read of 0 bytes is a read error, with no fallback. -/
theorem test_device_read_error :
    answer (execConstruct none none (platform false [] (some "nb") (some "b") true [.ok [], .ok []])) = some [3] := by
  decide +kernel

/-- V16: the chunk requests of an EGD read of 300 bytes. -/
theorem test_egd_chunks :
    (readEgd .etcEntropy 300
        { replies := [.ok [], .ok (List.replicate 255 1), .ok (List.replicate 45 2)], taken := 0, log := [] }).2.log =
      [.connect .etcEntropy true, .exchange [0x02, 0xff] 255, .exchange [0x02, 0x2d] 45, .disconnect .etcEntropy] := by
  decide +kernel

/-! ## A step on the command port -/

/-- V18, V8: an illegal word is taken alone, and the command after it is then executed. -/
theorem test_step_illegal_then_next :
    after (fun t => (t.cmd, t.resp)) (step (State.reset.offer [0x103, 3])) = some ([3], [0x80]) ∧
      after (fun t => (t.cmd, t.resp)) (step (State.reset.offer [3])) = some ([], [0x81]) := by decide

/-- V19: `ranged 0, 1` before seeding is `NotSeeded`; `construct bits=100` is `InvalidOption`. -/
theorem test_step_priority :
    answer (step (State.reset.offer [7, 0, 0, 1])) = some [0x81] ∧
      answer (step (State.reset.offer [1, 1, 100])) = some [1] := by decide +kernel

/-- A table word stands on the port as the next command. -/
theorem test_withFetchWord : answer (step (State.reset.withFetchWord 64 0x0000000700000004)) = some [0x81] := by
  decide

/-! ## Witnesses for the statements that have hypotheses -/

theorem witness_DecodeOfEncodeIsTheCommand :
    wellFormed (.construct (some 128) (some true)) = true ∧ wellFormed (.seed (List.replicate 257 1)) = true ∧
      wellFormed .next = true ∧ wellFormed (.bytes 0xffffffff) = true ∧ wellFormed (.hex 0) = true ∧
      wellFormed (.strfrom [] 0) = true ∧ wellFormed (.ranged 0xffffffffffffffff 1) = true := by decide +kernel

theorem witness_DecodeTakesTheCommandsWords : decode [0x2, 0x1, 7, 3] = .ok (.seed [7], [3]) := by decide

theorem witness_DecodeWaitsExactlyForMissingWords :
    decode [0x6, 0x5, 1, 2] = .error .incomplete ∧ [0x6, 0x5, 1, 2].length < commandLength 0x6 0x5 := by decide

theorem witness_IllegalWordIsTakenAloneAndAnswered :
    (State.reset.offer [0x100]).cmd = [0x100] ∧ (State.reset.offer [1, 8, 0]).cmd = [0x01, 8, 0] ∧ (0x100 : Word).extractLsb' 8 24 ≠ 0 ∧
      (0x00 : Word).extractLsb' 0 8 = 0x00 ∧ 0x08 ≤ ((0x08 : Word).extractLsb' 0 8).toNat ∧
      0x08 ≤ ((0xff : Word).extractLsb' 0 8).toNat ∧ (0x8 : Word).extractLsb' 3 29 ≠ 0 ∧
      (0x80000000 : Word).extractLsb' 3 29 ≠ 0 := by decide

theorem witness_StepRunsTheDecodedCommand : decode (State.reset.offer [4, 7, 3]).cmd = .ok (.bytes 7, [3]) := by decide

theorem witness_EncodedCommandIsExecutedNext : wellFormed (.strfrom [0x61] 3) = true := by decide

theorem witness_IncompleteCommandLeavesTheBlockIdle :
    decode State.reset.cmd = .error .incomplete ∧ decode (State.reset.offer [2, 1]).cmd = .error .incomplete := by decide

theorem witness_EveryCommandAnswersWithOneStatus : ∃ t, step (State.reset.offer [3]) = .next t := ⟨_, rfl⟩

theorem witness_ErrorLeavesTheBlockUnchanged :
    ∃ t, step (State.reset.offer [3]) = .next t ∧
      t.resp = (State.reset.offer [3]).resp ++ Status.notSeeded.word :: [] ∧ Status.notSeeded ≠ .ok :=
  ⟨_, rfl, by decide, by decide⟩

theorem witness_NotSeededIsCheckedFirst :
    isDrawing (.ranged 0 1) = true ∧ State.reset.phase = .unseeded ∧
      isDrawing (.seed []) = false ∧ ∃ t, exec (.seed []) State.reset = .next t :=
  ⟨rfl, rfl, rfl, _, rfl⟩

theorem witness_EngineCannotFailOnceReady :
    (ready 0).phase = .ready ∧
      (∃ t, exec (.ranged 0 1) (ready 0) = .next t ∧ t.resp = (ready 0).resp ++ Status.zeroRange.word :: []) ∧
      (∃ t, exec (.ranged 0x100000001 1) (ready 0) = .next t ∧
        t.resp = (ready 0).resp ++ Status.rangeTooLarge.word :: []) ∧
      (∃ t, exec (.strfrom [] 1) (ready 0) = .next t ∧ t.resp = (ready 0).resp ++ Status.emptyBag.word :: []) :=
  ⟨rfl, ⟨_, rfl, rfl⟩, ⟨_, rfl, rfl⟩, ⟨_, rfl, rfl⟩⟩

theorem witness_SamplingOperandErrors :
    (ready 0).phase = .ready ∧ 2 ^ 32 < (0x100000001 : BitVec 64).toNat ∧
      2 ^ 32 < (0xffffffffffffffff : BitVec 64).toNat := by decide

theorem witness_IllegalBitsAnswerInvalidOption :
    ([0, 32, 63, 65, 100, 8191, 8193, 16384, 0x80000000, 0xffffffff] : List Word).all
      (fun b => decide (b.toInt ∉ legalBits)) = true := by decide +kernel

theorem witness_PhaseChangesOnlyBySuccessfulSeeding :
    (∃ t, step (State.reset.offer [2, 0]) = .next t ∧ t.phase ≠ (State.reset.offer [2, 0]).phase) ∧
      isDrawing (.seed []) = false ∧
      ∃ t, exec (.seed []) State.reset = .next t ∧ t.resp = State.reset.resp ++ [0x00] :=
  ⟨⟨_, rfl, by decide⟩, rfl, _, rfl, rfl⟩

theorem witness_EveryStepKeepsTheInvariant : State.reset.Inv ∧ ∃ t, step (State.reset.offer [3]) = .next t := by
  refine ⟨⟨by decide +kernel, ?_, .inl rfl, fun _ => rfl, rfl⟩, _, rfl⟩
  intro h
  cases h

theorem witness_CfgBitsIsWrittenByConstructAndReadByNothing :
    ∃ t, exec (.construct (some 64) none) (platform true [] none none false [.ok [1, 2, 3, 4, 5, 6, 7, 8]]) = .next t ∧
      t.cfgBits ≠ (platform true [] none none false []).cfgBits ∧
      t.resp = (platform true [] none none false []).resp ++ [0x00] :=
  ⟨_, rfl, by decide, rfl⟩

theorem witness_UnseededEngineIsNeverObserved :
    State.reset.phase = .unseeded ∧ ∃ t, exec (.seed []) State.reset = .next t ∧ t.phase = .ready :=
  ⟨rfl, _, rfl, rfl⟩

theorem witness_SeedLoadsThePaddedSeedAndInitialises :
    (List.replicate 256 (5 : Word)).length ≤ 256 ∧ 256 < (List.replicate 257 (5 : Word)).length ∧ 0 < 32 ∧ 31 < 32 := by
  decide +kernel

theorem witness_SeededEngineIsAFunctionOfThePaddedSeed :
    ([] : List Word).length ≤ 256 ∧ (List.replicate 256 (5 : Word)).length ≤ 256 := by decide +kernel

theorem witness_StateAfterSeeding :
    (∃ t, exec (.seed [1]) State.reset = .next t ∧ t.resp = State.reset.resp ++ [0x00]) ∧
      (∃ t, exec (.construct (some 64) none) (platform true [] none none false [.ok [1, 2, 3, 4, 5, 6, 7, 8]]) =
        .next t ∧ t.resp = [] ++ [0x00]) :=
  ⟨⟨_, rfl, rfl⟩, ⟨_, rfl, rfl⟩⟩

theorem witness_SeedingFrame :
    isDrawing (.seed []) = false ∧ usesProvider (.seed []) = false ∧ isDrawing (.construct none none) = false ∧
      (∃ t, exec (.seed []) State.reset = .next t) ∧ ∃ t, exec (.construct (some 0) none) State.reset = .next t :=
  ⟨rfl, rfl, rfl, ⟨_, rfl⟩, ⟨_, rfl⟩⟩

theorem witness_SameSeedGivesTheSameStream :
    ([1, 2, 3] : List Word).length ≤ 256 ∧ (∀ i ∈ [Instr.next, .bytes 3], usesProvider i = false) ∧
      ∃ t, execAll [.seed [1, 2, 3], .next, .bytes 3] State.reset = .next t :=
  ⟨by decide, by decide, _, rfl⟩

theorem witness_RefillReadsSeeTheRoundsOwnWrites :
    (let pre := State.reset.engine.afterSteps 0
     stepFourIndex (pre.mem.read 0) = 0 ∧ stepFiveIndex ((pre.refillStep 0).mem.read 0) = 0) ∧
    (let pre := State.reset.engine.afterSteps 1
     stepFiveIndex ((pre.refillStep 1).mem.read 1) ≠ 1) ∧
    (0 : Index) ≠ 1 ∧ (0 : Index).toNat < (1 : Index).toNat ∧ (1 : Index).toNat ≤ (255 : Index).toNat ∧
    (127 : Index).toNat < 128 ∧ 128 ≤ (128 : Index).toNat := by decide +kernel

theorem witness_MasksAndIndicesAreBitFields :
    (0 : Index).toNat % 4 = 0 ∧ (253 : Index).toNat % 4 = 1 ∧ (2 : Index).toNat % 4 = 2 ∧
      (255 : Index).toNat % 4 = 3 := by decide

theorem witness_NextReturnsTheNextBufferedWord :
    (ready 0).phase = .ready ∧ (ready 0).engine.cnt = 0 ∧ (ready 1).engine.cnt.val = (0 : Fin 257).val + 1 ∧
      (ready 256).engine.cnt.val = (255 : Fin 257).val + 1 := by decide

theorem witness_RefillBoundary :
    (1 ≤ 1 ∧ ¬ (256 < 1 ∧ 1 % 256 = 1)) ∧ (1 ≤ 256 ∧ ¬ (256 < 256 ∧ 256 % 256 = 1)) ∧
      (1 ≤ 257 ∧ 256 < 257 ∧ 257 % 256 = 1) ∧ (1 ≤ 258 ∧ ¬ (256 < 258 ∧ 258 % 256 = 1)) := by decide

theorem witness_DrawingFrame :
    isDrawing .next = true ∧ (∃ t, exec .next (ready 0) = .next t) ∧ (∃ t, exec .next (ready 256) = .next t) ∧
      1 ≤ (ready 256).engine.cnt.val :=
  ⟨rfl, ⟨_, rfl⟩, ⟨_, rfl⟩, by decide⟩

theorem witness_BytesReturnsTheByteString : (ready 256).phase = .ready := rfl

theorem witness_HexReturnsTheByteStringAsText : (ready 0).phase = .ready := rfl

theorem witness_PackedBytesStandInTheirWords :
    0 < 4 * (packBytes [7]).length ∧ 7 < 4 * (packBytes [1, 2, 3, 4, 5]).length := by decide

theorem witness_DivisorIsTheLeastPowerOfTwo :
    1 ≤ 1 ∧ 1 ≤ 2 ^ 32 ∧ 1 ≤ 2 ^ 32 ∧ 2 ^ 32 ≤ 2 ^ 32 := by decide

theorem witness_ReductionKeepsTheLowBits : 1 ≤ 1 ∧ 1 ≤ 2 ^ 32 ∧ 1 ≤ 2 ^ 32 ∧ 2 ^ 32 ≤ 2 ^ 32 := by decide

/-- Draw 2 is the first accepted one for range 3 (V13); no value is wanted; and both ends of the domain. -/
theorem witness_RangedReturnsTheAcceptedDraws :
    (ready 256).phase = .ready ∧
      ((ready 256).engine.accepted 3 2).length = (1 : Word).toNat ∧
      ((ready 256).engine.nthDraw 2).toNat % divisor 3 < 3 ∧
      ((ready 256).engine.accepted 3 0).length = (0 : Word).toNat ∧
      ((ready 256).engine.accepted 1 1).length = (1 : Word).toNat ∧
      ((ready 256).engine.accepted (2 ^ 32) 1).length = (1 : Word).toNat := by decide +kernel

theorem witness_StrfromReturnsTheSampledOctets :
    (ready 256).phase = .ready ∧ [0x61, 0x62, 0x63] ≠ ([] : List Byte) ∧ [0x61, 0x62, 0x63].length < 2 ^ 32 ∧
      ((ready 256).engine.accepted 3 2).length = (1 : Word).toNat ∧
      ((ready 256).engine.nthDraw 2).toNat % divisor 3 < 3 ∧
      ((ready 256).engine.accepted 1 0).length = (0 : Word).toNat := by decide +kernel

theorem witness_PowerOfTwoRangesNeverReject :
    (ready 256).phase = .ready ∧ 0 ≤ 32 ∧ 32 ≤ 32 ∧ [0x61].length = 2 ^ 0 ∧ [1, 2, 3, 4].length = 2 ^ 2 := by decide

theorem witness_EveryCommandCompletesUnlessItsRejectionLoopIsEndless :
    State.reset.phase ≠ .ready ∧ ¬ ∀ d, ((ready 256).engine.accepted 3 d).length < 1 :=
  ⟨by decide, fun h => absurd (h 2) (by decide +kernel)⟩

theorem witness_RangedValuesAreBelowTheRange :
    ∃ t, exec (.ranged 3 1) (ready 256) = .next t ∧ t.resp = (ready 256).resp ++ 0x00 :: [1] :=
  next_of_answer (by decide +kernel)

theorem witness_StrfromOctetsAreOfTheBag :
    ∃ t, exec (.strfrom [0x61, 0x62, 0x63] 1) (ready 256) = .next t ∧
      t.resp = (ready 256).resp ++ 0x00 :: [0x62] :=
  next_of_answer (by decide +kernel)

theorem witness_StrfromMapsTheValuesOfRanged :
    [0x61, 0x62, 0x63].length < 2 ^ 32 ∧
      ∃ t, exec (.ranged (BitVec.ofNat 64 [0x61, 0x62, 0x63].length) 1) (ready 256) = .next t ∧
        t.resp = (ready 256).resp ++ 0x00 :: [1] :=
  ⟨by decide, next_of_answer (by decide +kernel)⟩

theorem witness_ValidBitsAreTheEightPowersOfTwo :
    (∃ t, exec (.construct (some 8192) none) (platform true [] none none false [.failed]) = .next t) ∧
      ∃ t, exec (.construct (some 63) none) State.reset = .next t :=
  ⟨⟨_, rfl⟩, _, rfl⟩

theorem witness_ConstructSeedsFromTheOsApi :
    bitsOperand (some 64) ∈ legalBits ∧ (bitsOperand (some 64)).toNat / 8 ≤ [1, 2, 3, 4, 5, 6, 7, 8].length ∧
      bitsOperand (some 8192) ∈ legalBits ∧
      (bitsOperand (some 8192)).toNat / 8 ≤ (List.replicate 1024 (7 : Byte)).length ∧
      (platform true [] none none false [.ok [1, 2, 3, 4, 5, 6, 7, 8]]).platform.osApiAvailable = true := by
  decide +kernel

/-- Both kinds of device under both policies, and a read in two parts; with blocking sources allowed no EGD socket answers,
and the four failed connects are all that the probe leaves. -/
theorem witness_ConstructSeedsFromADevice :
    bitsOperand (some 64) ∈ legalBits ∧ nonblockingOperand none = true ∧ nonblockingOperand (some true) = true ∧
      (platform false [] (some "nb") none false []).platform.nbDevicePath = some "nb" ∧
      (platform false [] none (some "b") true []).platform.bDevicePath = some "b" ∧
      nonblockingOperand (some false) = false ∧
      (platform false [] none (some "b") false []).platform.blockingDevIsNonblocking = false ∧
      probeEgd (platform false [] none (some "b") false []).platform egdPaths
          (platform false [] none (some "b") false (.ok [] :: ([[1], [2, 3, 4, 5, 6, 7, 8]].map .ok ++ []))).entropy =
        (none,
          { replies := .ok [] :: ([[1], [2, 3, 4, 5, 6, 7, 8]].map .ok ++ []), taken := 0,
            log := egdPaths.map (fun p => .connect p false) }) ∧
      (∀ part ∈ ([[1], [2, 3, 4, 5, 6, 7, 8]] : List (List Byte)), part ≠ []) ∧
      [[1], [2, 3, 4, 5, 6, 7, 8]].flatten.length = (bitsOperand (some 64)).toNat / 8 ∧
      (platform false [] (some "nb") none false
        (.ok [] :: ([[1], [2, 3, 4, 5, 6, 7, 8]].map .ok ++ []))).entropy.replies =
          .ok [] :: ([[1], [2, 3, 4, 5, 6, 7, 8]].map .ok ++ []) := by decide +kernel

/-- The smallest and the greatest seed, in one chunk and in five. -/
theorem witness_ConstructSeedsFromAnEgdSocket :
    bitsOperand (some 64) ∈ legalBits ∧ bitsOperand (some 8192) ∈ legalBits ∧
      (platform false [.etcEntropy] none none false []).platform.egdSockets = [.etcEntropy] ∧
      4 ≤ ([0, 0, 16, 0] : List Byte).length ∧
      [[1, 2, 3, 4, 5, 6, 7, 8]].map List.length = chunkSizes ((bitsOperand (some 64)).toNat / 8) ∧
      [255, 255, 255, 255, 4].map (fun n => (List.replicate n (7 : Byte)).length) =
        chunkSizes ((bitsOperand (some 8192)).toNat / 8) := by decide +kernel

theorem witness_ConstructReportsProviderErrors :
    bitsOperand none ∈ legalBits ∧
      (∃ q, selectSource (platform false [] none none false []).platform true State.reset.entropy = (none, q)) ∧
      (∃ q, selectSource State.reset.platform true { State.reset.entropy with replies := [.failed] } =
          (some .osApi, q) ∧ ∃ q', entropyRead .osApi 32 q = (none, q')) :=
  ⟨by decide, ⟨_, rfl⟩, _, rfl, _, rfl⟩

theorem witness_SelectionFollowsThePriorityOrder :
    State.reset.platform.osApiAvailable = true ∧
      (platform false [] none none false []).platform.osApiAvailable = false := by decide

theorem witness_EgdProbeAcceptsAnyFullReply :
    EgdPath.devEgdPool ∉ State.reset.platform.egdSockets ∧
      EgdPath.etcEntropy ∈ (platform false [.etcEntropy] none none false []).platform.egdSockets ∧
      (platform false [.etcEntropy] none none false [.ok [1, 2, 3]]).entropy.replies = .ok [1, 2, 3] :: [] ∧
      [1, 2, 3].length < 4 ∧ 4 ≤ [0, 0, 0, 0].length := by decide +kernel

theorem witness_EntropyReadGivesExactlyTheBytesAsked :
    ∃ q', entropyRead .osApi 2 { replies := [.ok [1, 2, 3]], taken := 0, log := [] } = (some [1, 2], q') := ⟨_, rfl⟩

theorem witness_EgdReadSendsTheChunkRequests :
    ∃ q', readEgd .etcEntropy 2 { replies := [.ok [], .ok [1, 2]], taken := 0, log := [] } = (some [1, 2], q') :=
  ⟨_, rfl⟩

theorem witness_DeviceReadCollectsPartialReads :
    (∀ part ∈ ([[1], [2, 3]] : List (List Byte)), part ≠ []) ∧ [[1], [2, 3]].flatten.length = 3 ∧
      [[1], [2, 3]].flatten.length < 4 ∧ ([] : List (List Byte)).flatten.length < 1 ∧
      (platform false [] none none false [.failed]).entropy.replies = .failed :: [] := by decide

theorem witness_ProvidedWordsAreTheLittleEndianWordsRead :
    ∃ q', provide State.reset.platform true (4 * 2)
        { State.reset.entropy with replies := [.ok [0xef, 0xbe, 0xad, 0xde, 0x00, 0x00, 0x00, 0x80]] } =
      (.words [0xdeadbeef, 0x80000000], q') := ⟨_, rfl⟩

theorem witness_NoHandleOutlivesACommand :
    ∃ t, exec (.construct none (some false)) (platform false [.etcEntropy] none none false [.failed]) = .next t :=
  ⟨_, rfl⟩

end Sys2Proof.Machine.Tests
end

section
/-! PROOFS. The masks beside the right shifts of the refill round, and its two computed indices (spec/00_scope.md R7;
spec/41_engine_refill.md R120, R121). -/

namespace Sys2Proof.Machine

/-- The mask that keeps every bit a logical right shift by `k` can leave set changes nothing (R7). -/
theorem ushiftRight_and_allOnes_ushiftRight {w : Nat} (v : BitVec w) (k : Nat) :
    (v >>> k) &&& (BitVec.allOnes w >>> k) = v >>> k := by
  rw [← BitVec.ushiftRight_and_distrib, BitVec.and_allOnes]

/-- An index cut out of a word by a shift and a mask is the field of eight bits from bit `k` on (R52). -/
theorem setWidth_ushiftRight_and_ff (v : Word) (k : Nat) :
    ((v >>> k) &&& 0xFF).setWidth 8 = v.extractLsb' k 8 := by
  have hmask : (0xFF : Word).setWidth 8 = BitVec.allOnes 8 := by decide
  rw [BitVec.setWidth_and, hmask, BitVec.and_allOnes, BitVec.setWidth_ushiftRight_eq_extractLsb]

/-! ## The barrel shift at each of the four positions (R120) -/

theorem barrel_of_mod_four_eq_zero {p : Index} (hp : p.toNat % 4 = 0) (v : Word) :
    barrel p v = v ^^^ (v <<< 13) := by
  simp only [barrel, hp]

theorem barrel_of_mod_four_eq_one {p : Index} (hp : p.toNat % 4 = 1) (v : Word) :
    barrel p v = v ^^^ (v >>> 6) := by
  have hmask : (0x03FFFFFF : Word) = BitVec.allOnes 32 >>> 6 := by decide
  simp only [barrel, hp, hmask, ushiftRight_and_allOnes_ushiftRight]

theorem barrel_of_mod_four_eq_two {p : Index} (hp : p.toNat % 4 = 2) (v : Word) :
    barrel p v = v ^^^ (v <<< 2) := by
  simp only [barrel, hp]

theorem barrel_of_mod_four_eq_three {p : Index} (hp : p.toNat % 4 = 3) (v : Word) :
    barrel p v = v ^^^ (v >>> 16) := by
  have hmask : (0x0000FFFF : Word) = BitVec.allOnes 32 >>> 16 := by decide
  simp only [barrel, hp, hmask, ushiftRight_and_allOnes_ushiftRight]

/-! ## The two computed indices (R121, steps 4 and 5) -/

theorem stepFourIndex_eq_extractLsb' (x : Word) : stepFourIndex x = x.extractLsb' 2 8 :=
  setWidth_ushiftRight_and_ff x 2

theorem stepFiveIndex_eq_extractLsb' (y : Word) : stepFiveIndex y = y.extractLsb' 10 8 :=
  setWidth_ushiftRight_and_ff y 10

/-- Settles O32, by the four forms of the barrel shift and the bit fields of the two indices. -/
theorem masksAndIndicesAreBitFields : Obligations.MasksAndIndicesAreBitFields := fun _ v =>
  ⟨fun h => barrel_of_mod_four_eq_zero h v, fun h => barrel_of_mod_four_eq_one h v,
    fun h => barrel_of_mod_four_eq_two h v, fun h => barrel_of_mod_four_eq_three h v,
    stepFourIndex_eq_extractLsb' v, stepFiveIndex_eq_extractLsb' v⟩

end Sys2Proof.Machine
end

section
/-! PROOFS. The handles of the entropy provider: every operation of the provider holds after it exactly the handles it
held before (spec/42_entropy_provider.md section 4, R159). -/

namespace Sys2Proof.Machine

@[simp] theorem EntropyPort.heldHandles_note (q : EntropyPort) (a : Action) :
    (q.note a).heldHandles = handlesAfter q.heldHandles a := by
  simp [EntropyPort.heldHandles]

@[simp] theorem EntropyPort.heldHandles_take (q : EntropyPort) : q.take.2.heldHandles = q.heldHandles := by
  simp [EntropyPort.heldHandles]

/-! ## The probes (R147, R156) -/

theorem probeEgd_heldHandles (p : Platform) (paths : List EgdPath) (q : EntropyPort) :
    (probeEgd p paths q).2.heldHandles = q.heldHandles := by
  induction paths generalizing q with
  | nil => rfl
  | cons path paths ih =>
    rw [probeEgd]
    by_cases hp : path ∈ p.egdSockets
    · rw [if_pos hp]
      dsimp only
      split
      · simp [handlesAfter]
      · simp [ih, handlesAfter]
    · rw [if_neg hp, ih]
      simp [handlesAfter]

theorem probeDevice_heldHandles (source : String → Source) (path : Option String) (q : EntropyPort) :
    (probeDevice source path q).2.heldHandles = q.heldHandles := by
  cases path with
  | none => rfl
  | some path => simp [probeDevice, handlesAfter]

theorem probe_heldHandles (p : Platform) (c : Candidate) (q : EntropyPort) :
    (probe p c q).2.heldHandles = q.heldHandles := by
  cases c with
  | osApi => rfl
  | egd => exact probeEgd_heldHandles p egdPaths q
  | nbDevice => exact probeDevice_heldHandles _ _ q
  | bDevice => exact probeDevice_heldHandles _ _ q

theorem selectFrom_heldHandles (p : Platform) (nonblocking : Bool) (cs : List Candidate) (q : EntropyPort) :
    (selectFrom p nonblocking cs q).2.heldHandles = q.heldHandles := by
  induction cs generalizing q with
  | nil => rfl
  | cons c cs ih =>
    have hprobe := probe_heldHandles p c q
    rw [selectFrom]
    split
    · exact ih q
    · split <;> rename_i h <;> rw [h] at hprobe
      · exact hprobe
      · rw [ih]; exact hprobe

/-! ## The reads (R152, R153, R157) -/

theorem fileLoop_heldHandles (turns need : Nat) (q : EntropyPort) :
    (fileLoop turns need q).2.heldHandles = q.heldHandles := by
  induction turns generalizing need q with
  | zero => rfl
  | succ turns ih =>
    rw [fileLoop]
    split
    · rfl
    · dsimp only
      split
      · simp [handlesAfter]
      · simp [ih, handlesAfter]

theorem readFile_heldHandles (path : String) (nbytes : Nat) (q : EntropyPort) :
    (readFile path nbytes q).2.heldHandles = q.heldHandles := by
  have htake := q.heldHandles_take
  unfold readFile
  split <;> rename_i h <;> rw [h] at htake
  · simpa [handlesAfter] using htake
  · simpa [handlesAfter, fileLoop_heldHandles] using htake

theorem egdLoop_heldHandles (turns need : Nat) (q : EntropyPort) :
    (egdLoop turns need q).2.heldHandles = q.heldHandles := by
  induction turns generalizing need q with
  | zero => rfl
  | succ turns ih =>
    rw [egdLoop]
    split
    · rfl
    · dsimp only
      split
      · simp [handlesAfter]
      · simp [ih, handlesAfter]

theorem readEgd_heldHandles (path : EgdPath) (nbytes : Nat) (q : EntropyPort) :
    (readEgd path nbytes q).2.heldHandles = q.heldHandles := by
  have htake := q.heldHandles_take
  unfold readEgd
  split <;> rename_i h <;> rw [h] at htake
  · simpa [handlesAfter] using htake
  · simpa [handlesAfter, egdLoop_heldHandles] using htake

theorem readOsApi_heldHandles (nbytes : Nat) (q : EntropyPort) :
    (readOsApi nbytes q).2.heldHandles = q.heldHandles := by
  simp [readOsApi, handlesAfter]

theorem entropyRead_heldHandles (source : Source) (nbytes : Nat) (q : EntropyPort) :
    (entropyRead source nbytes q).2.heldHandles = q.heldHandles := by
  cases source with
  | osApi => exact readOsApi_heldHandles nbytes q
  | egd path => exact readEgd_heldHandles path nbytes q
  | nbDevice path => exact readFile_heldHandles path nbytes q
  | bDevice path => exact readFile_heldHandles path nbytes q

/-- The provider's whole part in a CONSTRUCT releases what it opens, whatever it answers (R159). -/
theorem provide_heldHandles (p : Platform) (nonblocking : Bool) (nbytes : Nat) (q : EntropyPort) :
    (provide p nonblocking nbytes q).2.heldHandles = q.heldHandles := by
  have hselect := selectFrom_heldHandles p nonblocking candidates q
  unfold provide selectSource
  split <;> rename_i h <;> rw [h] at hselect
  · exact hselect
  · rename_i source q1
    have hread := entropyRead_heldHandles source nbytes q1
    split <;> rename_i h' <;> rw [h'] at hread <;> exact hread.trans hselect

end Sys2Proof.Machine
end

section
/-! PROOFS. Seeding forgets the engine before it: RANDINIT reads `rsl` alone, and `rsl` holds the padded seed
(spec/10_state.md R32; spec/40_engine_init.md R104, R106, R107). -/

namespace Sys2Proof.Machine

/-! ## The groups of a pass -/

/-- The words of the group at `i`: `i + t` for `t` in 0..7 (R104). -/
def groupIndices (i : Index) : List Index :=
  [i, i + 1, i + 2, i + 3, i + 4, i + 5, i + 6, i + 7]

/-- After a group is written, a word of the group holds a mixing register and no longer what it held before (R104). -/
theorem Memory.writeGroup_read_congr {m n : Memory} {i q : Index} (s : MixRegs)
    (h : q ∈ groupIndices i ∨ m.read q = n.read q) : (m.writeGroup i s).read q = (n.writeGroup i s).read q := by
  rcases h with hq | hread
  · simp only [groupIndices, List.mem_cons, List.not_mem_nil, or_false] at hq
    rcases hq with rfl | rfl | rfl | rfl | rfl | rfl | rfl | rfl <;>
      simp [Memory.writeGroup, Memory.read_write]
  · simp only [Memory.writeGroup, Memory.read_write, hread]

/-- Every word of a memory is in one of the groups of a pass (R104). -/
theorem exists_mem_groups (q : Index) : ∃ i ∈ groups, q ∈ groupIndices i := by
  have hlt := q.isLt
  have hq : q = BitVec.ofNat 8 (8 * (q.toNat / 8)) + BitVec.ofNat 8 (q.toNat % 8) := by
    apply BitVec.eq_of_toNat_eq
    simp only [BitVec.toNat_add, BitVec.toNat_ofNat]
    omega
  refine ⟨BitVec.ofNat 8 (8 * (q.toNat / 8)), ?_, ?_⟩
  · simp only [groups, List.mem_map, List.mem_range]
    exact ⟨q.toNat / 8, by omega, rfl⟩
  · have ht : q.toNat % 8 < 8 := Nat.mod_lt _ (by decide)
    generalize BitVec.ofNat 8 (8 * (q.toNat / 8)) = i at hq
    generalize q.toNat % 8 = t at hq ht
    subst hq
    interval_cases t <;> simp [groupIndices]

namespace Engine

/-! ## Pass 1 writes all of `mem` and reads none of it -/

theorem foldl_foldGroup_rsl_mix_congr (is : List Index) {e f : Engine} (hmix : e.mix = f.mix)
    (hrsl : e.rsl = f.rsl) :
    (is.foldl (fun e i => e.foldGroup e.rsl i) e).mix = (is.foldl (fun e i => e.foldGroup e.rsl i) f).mix := by
  induction is generalizing e f with
  | nil => exact hmix
  | cons i is ih => exact ih (by simp only [foldGroup, hmix, hrsl]) hrsl

theorem foldl_foldGroup_rsl_mem_congr (is : List Index) {e f : Engine} (hmix : e.mix = f.mix) (hrsl : e.rsl = f.rsl)
    (q : Index) (hq : (∃ i ∈ is, q ∈ groupIndices i) ∨ e.mem.read q = f.mem.read q) :
    (is.foldl (fun e i => e.foldGroup e.rsl i) e).mem.read q =
      (is.foldl (fun e i => e.foldGroup e.rsl i) f).mem.read q := by
  induction is generalizing e f with
  | nil => simpa using hq
  | cons i is ih =>
    refine ih (by simp only [foldGroup, hmix, hrsl]) hrsl ?_
    rw [List.exists_mem_cons_iff, or_assoc, or_left_comm] at hq
    refine hq.imp_right fun hi => ?_
    simpa only [foldGroup, hmix, hrsl] using Memory.writeGroup_read_congr _ hi

theorem eq_of_fields {e f : Engine} (ra : e.ra = f.ra) (rb : e.rb = f.rb) (rc : e.rc = f.rc) (mix : e.mix = f.mix)
    (mem : e.mem = f.mem) (rsl : e.rsl = f.rsl) (cnt : e.cnt = f.cnt) : e = f := by
  cases e
  cases f
  simp only at ra rb rc mix mem rsl cnt
  subst ra rb rc mix mem rsl cnt
  rfl

/-- Pass 1 changes `s0..s7` and `mem` only (R104). -/
theorem passOne_frame (e : Engine) :
    e.passOne.ra = e.ra ∧ e.passOne.rb = e.rb ∧ e.passOne.rc = e.rc ∧ e.passOne.rsl = e.rsl ∧
      e.passOne.cnt = e.cnt := by
  unfold passOne
  exact foldl_foldGroup_frame (·.rsl) groups e

theorem passOne_mix_congr {e f : Engine} (hmix : e.mix = f.mix) (hrsl : e.rsl = f.rsl) :
    e.passOne.mix = f.passOne.mix := by
  unfold passOne
  exact foldl_foldGroup_rsl_mix_congr groups hmix hrsl

theorem passOne_mem_congr {e f : Engine} (hmix : e.mix = f.mix) (hrsl : e.rsl = f.rsl) :
    e.passOne.mem = f.passOne.mem := by
  unfold passOne
  exact Memory.ext_read fun q => foldl_foldGroup_rsl_mem_congr groups hmix hrsl q (.inl (exists_mem_groups q))

/-- Two engines with the same registers and the same `rsl` are the same after pass 1, but for the counter (R104). -/
theorem passOne_congr {e f : Engine} (hra : e.ra = f.ra) (hrb : e.rb = f.rb) (hrc : e.rc = f.rc)
    (hmix : e.mix = f.mix) (hrsl : e.rsl = f.rsl) : e.passOne = { f.passOne with cnt := e.cnt } := by
  obtain ⟨era, erb, erc, ersl, ecnt⟩ := e.passOne_frame
  obtain ⟨fra, frb, frc, frsl, -⟩ := f.passOne_frame
  exact eq_of_fields (era.trans (hra.trans fra.symm)) (erb.trans (hrb.trans frb.symm))
    (erc.trans (hrc.trans frc.symm)) (passOne_mix_congr hmix hrsl) (passOne_mem_congr hmix hrsl)
    (ersl.trans (hrsl.trans frsl.symm)) ecnt

/-- Pass 2 does not read the counter (R104). -/
theorem passTwo_withCnt (e : Engine) (c : Fin 257) : { e with cnt := c }.passTwo = { e.passTwo with cnt := c } := by
  unfold passTwo
  generalize groups = is
  induction is generalizing e with
  | nil => rfl
  | cons i is ih => exact ih (e.foldGroup e.mem i)

/-- RANDINIT is a function of `rsl` alone (R102 to R105, R107). -/
theorem randinit_congr {e f : Engine} (hrsl : e.rsl = f.rsl) : e.randinit = f.randinit := by
  rw [randinit_eq, randinit_eq, passOne_congr (e := { e with mix := MixRegs.setUp, ra := 0, rb := 0, rc := 0 })
    (f := { f with mix := MixRegs.setUp, ra := 0, rb := 0, rc := 0 }) rfl rfl rfl rfl hrsl,
    passTwo_withCnt, isaac_withCnt]

/-- Loading a seed fills the whole of `rsl`, with zeros beyond the seed's words (R106). -/
theorem loadSeed_rsl_read (e : Engine) (seed : List Word) (t : Index) :
    (e.loadSeed seed).rsl.read t = seed.getD t.toNat 0 := by
  rw [loadSeed, Memory.read_foldl_write (fun t => seed.getD t.toNat 0), if_pos (mem_positions t)]

/-- The engine after a seeding is a function of the zero-padded seed, whatever engine was seeded (R32, R107). -/
theorem seeded_congr (e f : Engine) {seed seed' : List Word}
    (h : ∀ t : Index, seed.getD t.toNat 0 = seed'.getD t.toNat 0) :
    e.seeded seed = f.seeded seed' :=
  randinit_congr (Memory.ext_read fun t => by rw [loadSeed_rsl_read, loadSeed_rsl_read, h])

/-- Zeros after the words of a seed change nothing (R107). -/
theorem seeded_append_zeros (e f : Engine) (seed : List Word) (k : Nat) :
    f.seeded (seed ++ List.replicate k 0) = e.seeded seed := by
  refine seeded_congr f e fun t => ?_
  obtain ht | ht := Nat.lt_or_ge t.toNat seed.length
  · rw [List.getD_append _ _ _ _ ht]
  · rw [List.getD_append_right _ _ _ _ ht, List.getD_eq_default _ _ ht, List.getD_eq_getElem?_getD,
      List.getElem?_getD_replicate_default_eq]

end Engine

end Sys2Proof.Machine
end

section
/-! PROOFS. What each kind of command does to the state, as inversions of `exec`: SEED, CONSTRUCT, and the commands that
do not use the entropy provider as functions of the engine, the phase and `TAIL_MODE` alone. -/

namespace Sys2Proof.Machine

/-! ## Status words -/

theorem Status.word_eq_zero_iff (st : Status) : st.word = 0 ↔ st = .ok :=
  ⟨fun h => Status.word_injective st .ok (h.trans Status.ok_word.symm), fun h => h ▸ Status.ok_word⟩

/-- An error never answers the status word of `OK` (R75, R210). -/
theorem State.raise_resp_ne_ok {s : State} {st : Status} (h : st ≠ .ok) :
    (s.raise st).resp ≠ s.resp ++ [0x00] :=
  fun h0 => h ((Status.word_eq_zero_iff st).mp (by simpa using h0))

/-! ## The legal values of `bits` (R172) -/

theorem validBits_iff_mem_legalBits (bits : Int) : validBits bits = true ↔ bits ∈ legalBits := by
  constructor
  · intro h
    simp only [validBits, Bool.and_eq_true, decide_eq_true_eq, beq_iff_eq] at h
    obtain ⟨⟨hlo, hhi⟩, hand⟩ := h
    obtain ⟨k, hk⟩ := (Nat.and_sub_one_eq_zero_iff_isPowerOfTwo (by omega)).mp hand
    have hklo : 6 ≤ k := (Nat.pow_le_pow_iff_right (a := 2) (by decide)).mp (by omega)
    have hkhi : k ≤ 13 := (Nat.pow_le_pow_iff_right (a := 2) (by decide)).mp (by omega)
    obtain rfl : bits = ((2 ^ k : Nat) : Int) := by omega
    interval_cases k <;> decide
  · revert bits
    decide

/-! ## The seeding commands -/

theorem exec_construct_of_invalid {bits : Option Word} (nonblocking : Option Bool) (s : State)
    (h : validBits (bitsOperand bits) = false) :
    exec (.construct bits nonblocking) s = .next (s.raise .invalidOption) := by
  simp [exec, execConstruct, h]

theorem exec_construct_of_valid {bits : Option Word} (nonblocking : Option Bool) (s : State)
    (h : validBits (bitsOperand bits) = true) :
    exec (.construct bits nonblocking) s = .next (s.constructed (bitsOperand bits)
      (provide s.platform (nonblockingOperand nonblocking) (seedByteCount (bitsOperand bits)) s.entropy)) := by
  simp [exec, execConstruct, h]

/-- CONSTRUCT answers an error, and changes nothing but what the provider did outside the block, or its `bits` are legal
and it seeds the block with the provider's words; in either case no handle stays open (R159, R171, R215). -/
theorem exec_construct_cases {bits : Option Word} {nonblocking : Option Bool} {s t : State}
    (h : exec (.construct bits nonblocking) s = .next t) :
    ∃ q : EntropyPort, q.heldHandles = s.entropy.heldHandles ∧
      ((∃ st, st ≠ .ok ∧ t = ({ s with entropy := q } : State).raise st) ∨
        (bitsOperand bits ∈ legalBits ∧ ∃ words, t =
          ({ s with entropy := q, cfgBits := bitsOperand bits, phase := .ready } : State).finish
            (s.engine.seeded words) [])) := by
  cases hv : validBits (bitsOperand bits) with
  | false =>
    obtain rfl := Host.Outcome.next.inj (h.symm.trans (exec_construct_of_invalid nonblocking s hv))
    exact ⟨s.entropy, rfl, .inl ⟨.invalidOption, by decide, rfl⟩⟩
  | true =>
    obtain rfl := Host.Outcome.next.inj (h.symm.trans (exec_construct_of_valid nonblocking s hv))
    refine ⟨_, provide_heldHandles s.platform (nonblockingOperand nonblocking) (seedByteCount (bitsOperand bits))
      s.entropy, ?_⟩
    obtain ⟨answer, q⟩ :=
      provide s.platform (nonblockingOperand nonblocking) (seedByteCount (bitsOperand bits)) s.entropy
    cases answer with
    | noSource => exact .inl ⟨.noEntropySource, by decide, rfl⟩
    | readError => exact .inl ⟨.entropyReadError, by decide, rfl⟩
    | words ws => exact .inr ⟨(validBits_iff_mem_legalBits _).mp hv, ws, rfl⟩

/-- SEED of at most 256 words seeds the engine and sets the phase (R106). -/
theorem exec_seed_of_le {words : List Word} (s : State) (h : words.length ≤ 256) :
    exec (.seed words) s = .next (({ s with phase := .ready } : State).finish (s.engine.seeded words) []) := by
  obtain ⟨hlt, -⟩ | ⟨-, he⟩ := execSeed_cases words s
  · omega
  · exact he

/-- SEED of more than 256 words answers `InvalidSeed` and changes nothing else (R106). -/
theorem exec_seed_of_gt {words : List Word} (s : State) (h : 256 < words.length) :
    exec (.seed words) s = .next (s.raise .invalidSeed) := by
  obtain ⟨-, he⟩ | ⟨hle, -⟩ := execSeed_cases words s
  · exact he
  · omega

theorem seed_or_construct_of_not_isDrawing {i : Instr} (hi : isDrawing i = false) :
    (∃ words, i = .seed words) ∨ ∃ bits nonblocking, i = .construct bits nonblocking := by
  cases i with
  | construct bits nonblocking => exact .inr ⟨bits, nonblocking, rfl⟩
  | seed words => exact .inl ⟨words, rfl⟩
  | _ => simp [isDrawing] at hi

/-! ## The drawing commands -/

/-- Every drawing command begins with the readiness check (R213). -/
theorem exec_drawing_eq_whenReady {i : Instr} (hi : isDrawing i = true) (s : State) :
    ∃ k, exec i s = s.whenReady k := by
  cases i with
  | construct _ _ => simp [isDrawing] at hi
  | seed _ => simp [isDrawing] at hi
  | next => exact ⟨_, rfl⟩
  | bytes n => exact ⟨_, rfl⟩
  | hex n => exact ⟨_, rfl⟩
  | strfrom bag n => exact ⟨_, rfl⟩
  | ranged range count => exact ⟨_, rfl⟩

theorem exec_drawing_of_unseeded {i : Instr} {s : State} (hi : isDrawing i = true) (h : s.phase = .unseeded) :
    exec i s = .next (s.raise .notSeeded) := by
  obtain ⟨k, hk⟩ := exec_drawing_eq_whenReady hi s
  rw [hk, State.whenReady_of_unseeded h]

/-! ## Commands as effects

A command that does not use the provider reads the engine, the phase and `TAIL_MODE` alone, so what it does can be
written down without the state it runs on. -/

/-- What a command without the provider leaves: the engine and the phase, and the response. -/
structure Effect where
  engine : Engine
  phase : Phase
  status : Status
  payload : List Word

/-- The state an effect leaves. -/
def Effect.on (f : Effect) (s : State) : State :=
  ({ s with engine := f.engine, phase := f.phase } : State).reply f.status f.payload

@[simp] theorem Effect.on_engine (f : Effect) (s : State) : (f.on s).engine = f.engine := rfl
@[simp] theorem Effect.on_phase (f : Effect) (s : State) : (f.on s).phase = f.phase := rfl
@[simp] theorem Effect.on_cfgBits (f : Effect) (s : State) : (f.on s).cfgBits = s.cfgBits := rfl
@[simp] theorem Effect.on_cmd (f : Effect) (s : State) : (f.on s).cmd = s.cmd := rfl
@[simp] theorem Effect.on_resp (f : Effect) (s : State) : (f.on s).resp = s.resp ++ f.status.word :: f.payload := rfl
@[simp] theorem Effect.on_tailMode (f : Effect) (s : State) : (f.on s).tailMode = s.tailMode := rfl
@[simp] theorem Effect.on_platform (f : Effect) (s : State) : (f.on s).platform = s.platform := rfl
@[simp] theorem Effect.on_entropy (f : Effect) (s : State) : (f.on s).entropy = s.entropy := rfl

/-- Two states that no command without the provider tells apart. -/
structure State.SameInputs (s s' : State) : Prop where
  engine : s'.engine = s.engine
  phase : s'.phase = s.phase
  tailMode : s'.tailMode = s.tailMode

theorem State.SameInputs.refl (s : State) : s.SameInputs s := ⟨rfl, rfl, rfl⟩

theorem Effect.on_sameInputs (f : Effect) {s s' : State} (h : s'.tailMode = s.tailMode) :
    (f.on s).SameInputs (f.on s') :=
  ⟨rfl, rfl, h⟩

theorem State.SameInputs.whenReady {s s' : State} (h : s.SameInputs s') (hr : s.phase = .ready)
    (k : Host.Outcome State Fault Refusal) : s'.whenReady k = k :=
  State.whenReady_of_ready (h.phase.trans hr) k

/-- A command has one effect on all states with the inputs of `s`. -/
def HasEffect (i : Instr) (s : State) : Prop :=
  ∃ f : Effect, ∀ s', s.SameInputs s' → exec i s' = .next (f.on s')

/-- Answering an error is an effect: it leaves the engine and the phase. -/
theorem HasEffect.of_raise {i : Instr} {s : State} (st : Status)
    (h : ∀ s', s.SameInputs s' → exec i s' = .next (s'.raise st)) : HasEffect i s :=
  ⟨⟨s.engine, s.phase, st, []⟩, fun s' hs => by rw [h s' hs, ← hs.engine, ← hs.phase]; rfl⟩

/-- Ending with an engine and a payload is an effect: it leaves the phase. -/
theorem HasEffect.of_finish {i : Instr} {s : State} (e : Engine) (payload : List Word)
    (h : ∀ s', s.SameInputs s' → exec i s' = .next (s'.finish e payload)) : HasEffect i s :=
  ⟨⟨e, s.phase, .ok, payload⟩, fun s' hs => by rw [h s' hs, ← hs.phase]; rfl⟩

/-! ## The effect of each command -/

theorem hasEffect_next {s : State} (hr : s.phase = .ready) : HasEffect .next s :=
  .of_finish s.engine.draw.2 [s.engine.draw.1] fun s' hs => by
    simp only [exec, execNext, hs.whenReady hr, hs.engine]

theorem hasEffect_bytes {s : State} (hr : s.phase = .ready) (n : Word) : HasEffect (.bytes n) s :=
  let emitted := s.engine.emitBytes s.tailMode n.toNat
  .of_finish emitted.2 (packBytes emitted.1) fun s' hs => by
    simp only [exec, execBytes, hs.whenReady hr, hs.engine, hs.tailMode, emitted]

theorem hasEffect_hex {s : State} (hr : s.phase = .ready) (n : Word) : HasEffect (.hex n) s :=
  let emitted := s.engine.emitBytes s.tailMode n.toNat
  .of_finish emitted.2 (packBytes (emitted.1.flatMap hexDigits)) fun s' hs => by
    simp only [exec, execHex, hs.whenReady hr, hs.engine, hs.tailMode, emitted]

theorem hasEffect_strfrom {s t : State} (hr : s.phase = .ready) {bag : List Byte} {n : Word}
    (h : exec (.strfrom bag n) s = .next t) : HasEffect (.strfrom bag n) s := by
  simp only [exec, execStrfrom, State.whenReady_of_ready hr] at h
  by_cases hbag : bag.length = 0
  · exact .of_raise .emptyBag fun s' hs => by
      simp only [exec, execStrfrom, hs.whenReady hr, if_pos hbag]
  · cases hloop : s.engine.rangedRandoms bag.length n.toNat with
    | none => simp [hbag, hloop] at h
    | some sampled =>
      exact .of_finish sampled.2 (packBytes (sampled.1.map (bagOctet bag))) fun s' hs => by
        simp only [exec, execStrfrom, hs.whenReady hr, if_neg hbag, hs.engine, hloop]

theorem hasEffect_ranged {s t : State} (hr : s.phase = .ready) {range : BitVec 64} {count : Word}
    (h : exec (.ranged range count) s = .next t) : HasEffect (.ranged range count) s := by
  simp only [exec, execRanged, State.whenReady_of_ready hr] at h
  by_cases hzero : range.toNat = 0
  · exact .of_raise .zeroRange fun s' hs => by
      simp only [exec, execRanged, hs.whenReady hr, if_pos hzero]
  by_cases hmax : maxRange < range.toNat
  · exact .of_raise .rangeTooLarge fun s' hs => by
      simp only [exec, execRanged, hs.whenReady hr, if_neg hzero, if_pos hmax]
  cases hloop : s.engine.rangedRandoms range.toNat count.toNat with
  | none => simp [hzero, hmax, hloop] at h
  | some sampled =>
    exact .of_finish sampled.2 (sampled.1.map (BitVec.ofNat 32)) fun s' hs => by
      simp only [exec, execRanged, hs.whenReady hr, if_neg hzero, if_neg hmax, hs.engine, hloop]

theorem hasEffect_of_isDrawing {i : Instr} {s t : State} (hi : isDrawing i = true) (h : exec i s = .next t) :
    HasEffect i s := by
  cases hp : s.phase with
  | unseeded => exact .of_raise .notSeeded fun s' hs => exec_drawing_of_unseeded hi (hs.phase.trans hp)
  | ready =>
    cases i with
    | construct _ _ => simp [isDrawing] at hi
    | seed _ => simp [isDrawing] at hi
    | next => exact hasEffect_next hp
    | bytes n => exact hasEffect_bytes hp n
    | hex n => exact hasEffect_hex hp n
    | strfrom bag n => exact hasEffect_strfrom hp h
    | ranged range count => exact hasEffect_ranged hp h

theorem hasEffect_seed (words : List Word) (s : State) : HasEffect (.seed words) s := by
  obtain hgt | hle := Nat.lt_or_ge 256 words.length
  · exact .of_raise .invalidSeed fun s' _ => exec_seed_of_gt s' hgt
  · exact ⟨⟨s.engine.seeded words, .ready, .ok, []⟩, fun s' hs => by
      rw [exec_seed_of_le s' hle, hs.engine]; rfl⟩

theorem construct_of_usesProvider {i : Instr} (hi : usesProvider i = true) :
    ∃ bits nonblocking, i = .construct bits nonblocking := by
  cases i with
  | construct bits nonblocking => exact ⟨bits, nonblocking, rfl⟩
  | _ => simp [usesProvider] at hi

theorem isDrawing_of_not_usesProvider {i : Instr} (hi : usesProvider i = false) :
    isDrawing i = true ∨ ∃ words, i = .seed words := by
  cases i with
  | construct _ _ => simp [usesProvider] at hi
  | seed words => exact .inr ⟨words, rfl⟩
  | _ => exact .inl rfl

/-- A command that does not use the provider has one effect on all states with the same inputs. -/
theorem exec_eq_effect {i : Instr} {s t : State} (hi : usesProvider i = false) (h : exec i s = .next t) :
    ∃ f : Effect, t = f.on s ∧ ∀ s', s.SameInputs s' → exec i s' = .next (f.on s') := by
  have hf : HasEffect i s := by
    obtain hd | ⟨words, rfl⟩ := isDrawing_of_not_usesProvider hi
    · exact hasEffect_of_isDrawing hd h
    · exact hasEffect_seed words s
  obtain ⟨f, hf⟩ := hf
  exact ⟨f, Host.Outcome.next.inj (h.symm.trans (hf s (.refl s))), hf⟩

end Sys2Proof.Machine
end

section
/-! PROOFS. The invariant of the block: it holds at reset, and every command and every step keeps it
(spec/10_state.md sections 2, 3 and 5). -/

namespace Sys2Proof.Machine

/-- Settles O18: the two fields of the reset state that the spec fixes (R34, R240). -/
theorem resetIsUnseededAndUnconfigured : Obligations.ResetIsUnseededAndUnconfigured :=
  ⟨rfl, rfl⟩

/-- Settles O19: no seeding, no configuration and no handle precedes the first command. -/
theorem invariantHoldsAtReset : Obligations.InvariantHoldsAtReset where
  memories := ⟨zeroMemory_wf, zeroMemory_wf⟩
  block := fun h => by cases h
  config := .inl rfl
  unseeded := fun _ => rfl
  handles := rfl

/-! ## What keeps the invariant -/

/-- The invariant speaks of the block state and the open handles alone. -/
theorem State.Inv.of_sameBlock {s t : State} (hs : s.Inv) (hb : s.sameBlock t)
    (hh : t.entropy.heldHandles = s.entropy.heldHandles) : t.Inv := by
  obtain ⟨he, hp, hc⟩ := hb
  exact ⟨he ▸ hs.memories, fun h => he ▸ hs.block (hp ▸ h), hc ▸ hs.config,
    fun h => hc ▸ hs.unseeded (hp ▸ h),
    hh.trans hs.handles⟩

/-- An error keeps the invariant when what the provider did before it left no handle open (R159, R215). -/
theorem State.Inv.raise {s : State} (hs : s.Inv) {q : EntropyPort} (hq : q.heldHandles = s.entropy.heldHandles)
    (st : Status) : (({ s with entropy := q } : State).raise st).Inv :=
  hs.of_sameBlock ⟨rfl, rfl, rfl⟩ hq

/-- In phase `READY` the invariant is three facts: the output block, a legal `CFG_BITS`, no open handle. -/
theorem State.inv_of_ready {t : State} (hr : t.phase = .ready) (ha : t.engine.AfterRefill)
    (hc : legalCfgBits t.cfgBits) (hh : t.entropy.heldHandles = []) : t.Inv where
  memories := ⟨Memory.wf_eq_true _, Memory.wf_eq_true _⟩
  block := fun _ => ha
  config := hc
  unseeded := fun hu => by simp [hr] at hu
  handles := hh

theorem Engine.seeded_afterRefill (e : Engine) (seed : List Word) : (e.seeded seed).AfterRefill :=
  Engine.randinit_afterRefill _

/-- Every command keeps the invariant: an error leaves the block, a seeding makes a new output block, and draws keep
the block of the last refill round. -/
theorem exec_keeps_inv {i : Instr} {s t : State} (hs : s.Inv) (h : exec i s = .next t) : t.Inv := by
  cases hi : isDrawing i with
  | true =>
    obtain ⟨st, -, rfl⟩ | ⟨hr, d, payload, rfl⟩ := exec_drawing_cases hi h
    · exact hs.raise rfl st
    · exact State.inv_of_ready hr (Engine.afterDraws_afterRefill (hs.block hr) d) hs.config hs.handles
  | false =>
    obtain ⟨words, rfl⟩ | ⟨bits, nonblocking, rfl⟩ := seed_or_construct_of_not_isDrawing hi
    · obtain ⟨-, he⟩ | ⟨-, he⟩ := execSeed_cases words s <;>
        obtain rfl := Host.Outcome.next.inj (h.symm.trans he)
      · exact hs.raise rfl _
      · exact State.inv_of_ready rfl (Engine.seeded_afterRefill _ _) hs.config hs.handles
    · obtain ⟨q, hq, ⟨st, -, rfl⟩ | ⟨hlegal, words, rfl⟩⟩ := exec_construct_cases h
      · exact hs.raise hq st
      · exact State.inv_of_ready rfl (Engine.seeded_afterRefill _ _) (.inr hlegal) (hq.trans hs.handles)

/-- Settles O20: a step executes a command on the state with its words taken, idles, or answers an illegal word. -/
theorem everyStepKeepsTheInvariant : Obligations.EveryStepKeepsTheInvariant := by
  intro s t hs h
  have htaken : ∀ words : List Word, State.Inv { s with cmd := words } := fun _ =>
    hs.of_sameBlock ⟨rfl, rfl, rfl⟩ rfl
  obtain ⟨i, rest, -, he⟩ | rfl | rfl := step_cases h
  · exact exec_keeps_inv (htaken rest) he
  · exact hs
  · exact (htaken s.cmd.tail).raise rfl _

end Sys2Proof.Machine
end

section
/-! PROOFS. What the commands leave unchanged, and `CFG_BITS` (spec/10_state.md sections 2 and 3, R26, R27, R30;
spec/41_engine_refill.md R126). -/

namespace Sys2Proof.Machine

/-- Draws that do not outrun the counter only count down (R126). -/
theorem Engine.afterDraws_of_le {e : Engine} {d : Nat} (h : d ≤ e.cnt.val) :
    e.afterDraws d = { e with cnt := ⟨e.cnt.val - d, Nat.lt_of_le_of_lt (Nat.sub_le _ _) e.cnt.isLt⟩ } := by
  induction d with
  | zero => rfl
  | succ d ih =>
    rw [Engine.afterDraws_succ', ih (by omega), Engine.advance_of_ne_zero]
    · rfl
    · intro h0
      have := congrArg Fin.val h0
      simp at this
      omega

/-- Settles O35: a drawing command answers an error or finishes after some draws. -/
theorem drawingFrame : Obligations.DrawingFrame := by
  intro i s t hi h
  obtain ⟨st, -, rfl⟩ | ⟨-, d, payload, rfl⟩ := exec_drawing_cases hi h
  · exact ⟨rfl, rfl, rfl, rfl, ⟨rfl, rfl⟩, rfl, ⟨_, rfl⟩, 0, rfl,
      fun _ => ⟨fun _ => ⟨rfl, rfl⟩, rfl, rfl, rfl, rfl⟩⟩
  · refine ⟨rfl, rfl, rfl, rfl, ⟨rfl, rfl⟩, Engine.afterDraws_mix _ d, ⟨_, rfl⟩, d, rfl, fun hd => ?_⟩
    rw [State.finish_engine, Engine.afterDraws_of_le hd]
    exact ⟨fun _ => ⟨rfl, rfl⟩, rfl, rfl, rfl, rfl⟩

/-- Settles O27: SEED is an effect, which leaves the ports and the parameters; CONSTRUCT changes the entropy port and
`CFG_BITS` besides. -/
theorem seedingFrame : Obligations.SeedingFrame := by
  intro i s t hi h
  obtain ⟨words, rfl⟩ | ⟨bits, nonblocking, rfl⟩ := seed_or_construct_of_not_isDrawing hi
  · obtain ⟨f, rfl, -⟩ := exec_eq_effect rfl h
    exact ⟨rfl, ⟨rfl, rfl⟩, ⟨_, rfl⟩, fun _ => ⟨rfl, rfl⟩⟩
  · obtain ⟨q, -, ⟨st, -, rfl⟩ | ⟨-, words, rfl⟩⟩ := exec_construct_cases h
    · exact ⟨rfl, ⟨rfl, rfl⟩, ⟨_, rfl⟩, fun hp => by cases hp⟩
    · exact ⟨rfl, ⟨rfl, rfl⟩, ⟨_, rfl⟩, fun hp => by cases hp⟩

/-! ## `CFG_BITS` (R27) -/

/-- `CFG_BITS` changes only by a CONSTRUCT that answers `OK`. -/
theorem construct_of_cfgBits_ne {i : Instr} {s t : State} (h : exec i s = .next t) (hne : t.cfgBits ≠ s.cfgBits) :
    ∃ bits nonblocking, i = .construct bits nonblocking ∧ t.resp = s.resp ++ [0x00] := by
  cases hi : usesProvider i with
  | false =>
    obtain ⟨f, rfl, -⟩ := exec_eq_effect hi h
    exact absurd rfl hne
  | true =>
    obtain ⟨bits, nonblocking, rfl⟩ := construct_of_usesProvider hi
    obtain ⟨q, -, ⟨st, -, rfl⟩ | ⟨-, words, rfl⟩⟩ := exec_construct_cases h
    · exact absurd rfl hne
    · exact ⟨bits, nonblocking, rfl, rfl⟩

/-- A CONSTRUCT that answers `OK` writes its `bits`. -/
theorem construct_ok_cfgBits {bits : Option Word} {nonblocking : Option Bool} {s t : State}
    (h : exec (.construct bits nonblocking) s = .next t) (hok : t.resp = s.resp ++ [0x00]) :
    t.cfgBits = bitsOperand bits := by
  obtain ⟨q, -, ⟨st, hst, rfl⟩ | ⟨-, words, rfl⟩⟩ := exec_construct_cases h
  · exact absurd hok (State.raise_resp_ne_ok (s := { s with entropy := q }) hst)
  · rfl

/-- Two states agree in the responses, the engine, the phase and the entropy port: in all but `CFG_BITS` that a command
changes. -/
def State.AlikeButConfig (t u : State) : Prop :=
  u.resp = t.resp ∧ u.engine = t.engine ∧ u.phase = t.phase ∧ u.entropy = t.entropy

theorem State.constructed_withCfgBits (s : State) (b bits : Int) (answer : Provided × EntropyPort) :
    (s.constructed bits answer).AlikeButConfig (({ s with cfgBits := b } : State).constructed bits answer) := by
  obtain ⟨words | _ | _, q⟩ := answer <;> exact ⟨rfl, rfl, rfl, rfl⟩

/-- No command reads `CFG_BITS`. -/
theorem exec_withCfgBits {i : Instr} {s t : State} (b : Int) (h : exec i s = .next t) :
    ∃ u, exec i { s with cfgBits := b } = .next u ∧ t.AlikeButConfig u := by
  cases hi : usesProvider i with
  | false =>
    obtain ⟨f, rfl, hf⟩ := exec_eq_effect hi h
    exact ⟨_, hf { s with cfgBits := b } ⟨rfl, rfl, rfl⟩, rfl, rfl, rfl, rfl⟩
  | true =>
    obtain ⟨bits, nonblocking, rfl⟩ := construct_of_usesProvider hi
    cases hv : validBits (bitsOperand bits) with
    | false =>
      obtain rfl := Host.Outcome.next.inj (h.symm.trans (exec_construct_of_invalid nonblocking s hv))
      exact ⟨_, exec_construct_of_invalid nonblocking _ hv, rfl, rfl, rfl, rfl⟩
    | true =>
      obtain rfl := Host.Outcome.next.inj (h.symm.trans (exec_construct_of_valid nonblocking s hv))
      exact ⟨_, exec_construct_of_valid nonblocking _ hv, s.constructed_withCfgBits b _ _⟩

/-- Settles O21, from who writes `CFG_BITS`, what is written, and that no command reads it. -/
theorem cfgBitsIsWrittenByConstructAndReadByNothing : Obligations.CfgBitsIsWrittenByConstructAndReadByNothing :=
  ⟨rfl, fun _ _ _ => construct_of_cfgBits_ne, fun _ _ _ _ => construct_ok_cfgBits,
    fun _ _ _ b h => exec_withCfgBits b h⟩

end Sys2Proof.Machine
end

section
/-! PROOFS. Seeding and determinism: nothing of the engine before a seeding is seen, and the same seed with the same
commands gives the same responses (spec/10_state.md R32, R34; spec/40_engine_init.md R107;
spec/60_exceptions.md R223). -/

namespace Sys2Proof.Machine

/-! ## The unseeded engine (R34) -/

/-- Two states answer alike in phase `UNSEEDED`, and once `READY` are the same. -/
def State.AlikeOnceReady (t u : State) : Prop :=
  u.resp = t.resp ∧ u.phase = t.phase ∧ (t.phase = .ready → u = t)

theorem State.AlikeOnceReady.refl (t : State) : t.AlikeOnceReady t := ⟨rfl, rfl, fun _ => rfl⟩

/-- An error in phase `UNSEEDED` shows nothing of the engine. -/
theorem State.raise_alikeOnceReady {s : State} (h : s.phase = .unseeded) (e : Engine) (st : Status) :
    (s.raise st).AlikeOnceReady (({ s with engine := e } : State).raise st) :=
  ⟨rfl, rfl, fun hr => by simp [h] at hr⟩

/-- A seeding leaves nothing of the engine that was there. -/
theorem State.finish_seeded_withEngine (s : State) (e : Engine) (seed : List Word) :
    ({ s with engine := e } : State).finish (e.seeded seed) [] = s.finish (s.engine.seeded seed) [] := by
  rw [Engine.seeded_congr e s.engine fun _ => rfl]
  rfl

theorem State.finish_seeded_alikeOnceReady (s : State) (e : Engine) (seed : List Word) :
    (s.finish (s.engine.seeded seed) []).AlikeOnceReady
      (({ s with engine := e } : State).finish (e.seeded seed) []) := by
  rw [State.finish_seeded_withEngine s e]
  exact .refl _

theorem State.constructed_alikeOnceReady {s : State} (h : s.phase = .unseeded) (e : Engine) (bits : Int)
    (answer : Provided × EntropyPort) :
    (s.constructed bits answer).AlikeOnceReady (({ s with engine := e } : State).constructed bits answer) := by
  obtain ⟨words | _ | _, q⟩ := answer
  · exact State.finish_seeded_alikeOnceReady { s with entropy := q, cfgBits := bits, phase := .ready } e words
  · exact State.raise_alikeOnceReady (s := { s with entropy := q }) h e _
  · exact State.raise_alikeOnceReady (s := { s with entropy := q }) h e _

/-- Settles O22: an error shows nothing of the engine, and a seeding leaves nothing of it. -/
theorem unseededEngineIsNeverObserved : Obligations.UnseededEngineIsNeverObserved := by
  intro i s e hu
  cases hi : isDrawing i with
  | true =>
    exact ⟨_, _, exec_drawing_of_unseeded hi hu, exec_drawing_of_unseeded hi hu, State.raise_alikeOnceReady hu e _⟩
  | false =>
    obtain ⟨words, rfl⟩ | ⟨bits, nonblocking, rfl⟩ := seed_or_construct_of_not_isDrawing hi
    · obtain hgt | hle := Nat.lt_or_ge 256 words.length
      · exact ⟨_, _, exec_seed_of_gt s hgt, exec_seed_of_gt _ hgt, State.raise_alikeOnceReady hu e _⟩
      · exact ⟨_, _, exec_seed_of_le s hle, exec_seed_of_le _ hle,
          State.finish_seeded_alikeOnceReady { s with phase := .ready } e words⟩
    · cases hv : validBits (bitsOperand bits) with
      | false =>
        exact ⟨_, _, exec_construct_of_invalid nonblocking s hv, exec_construct_of_invalid nonblocking _ hv,
          State.raise_alikeOnceReady hu e _⟩
      | true =>
        exact ⟨_, _, exec_construct_of_valid nonblocking s hv, exec_construct_of_valid nonblocking _ hv,
          State.constructed_alikeOnceReady hu e _ _⟩

/-! ## The same seed (R32, R107, R223) -/

/-- SEED of a seed padded to 256 words, from any state, leaves the engine the seed gives from any other. -/
theorem exec_seed_padded (s s' : State) {words : List Word} (h : words.length ≤ 256) :
    exec (.seed (words ++ List.replicate (256 - words.length) 0)) s' =
      .next (({ s' with phase := .ready } : State).finish (s.engine.seeded words) []) := by
  rw [exec_seed_of_le s' (by simp only [List.length_append, List.length_replicate]; omega),
    Engine.seeded_append_zeros s.engine]

/-- Settles O25: zeros after the seed change nothing, and RANDINIT reads nothing else. -/
theorem seededEngineIsAFunctionOfThePaddedSeed : Obligations.SeededEngineIsAFunctionOfThePaddedSeed :=
  fun s s' _ h => ⟨_, _, exec_seed_of_le s h, exec_seed_padded s s' h, rfl⟩

theorem execAll_cons_of_next {i : Instr} {is : List Instr} {s u : State} (h : exec i s = .next u) :
    execAll (i :: is) s = execAll is u := by
  simp only [execAll, h]

theorem exec_of_execAll_cons {i : Instr} {is : List Instr} {s t : State} (h : execAll (i :: is) s = .next t) :
    ∃ u, exec i s = .next u ∧ execAll is u = .next t := by
  cases he : exec i s with
  | next u => exact ⟨u, rfl, (execAll_cons_of_next he).symm.trans h⟩
  | fault r => simp [execAll, he] at h
  | refused r => simp [execAll, he] at h

/-- Two states with the same inputs answer a list of commands without CONSTRUCT alike, and end in the same engine
state. -/
theorem execAll_sameInputs {commands : List Instr} {s s' t : State} (hc : ∀ i ∈ commands, usesProvider i = false)
    (hs : s.SameInputs s') (h : execAll commands s = .next t) :
    ∃ (t' : State) (responses : List Word), execAll commands s' = .next t' ∧
      t.resp = s.resp ++ responses ∧ t'.resp = s'.resp ++ responses ∧ t'.engine = t.engine := by
  induction commands generalizing s s' with
  | nil =>
    obtain rfl := Host.Outcome.next.inj h
    exact ⟨s', [], rfl, by simp, by simp, hs.engine⟩
  | cons i is ih =>
    obtain ⟨u, he, hrest⟩ := exec_of_execAll_cons h
    obtain ⟨f, rfl, hf⟩ := exec_eq_effect (hc i (by simp)) he
    obtain ⟨t', responses, hall, hresp, hresp', heng⟩ :=
      ih (fun j hj => hc j (by simp [hj])) (f.on_sameInputs hs.tailMode) hrest
    refine ⟨t', f.status.word :: f.payload ++ responses, ?_, by simp [hresp], by simp [hresp'], heng⟩
    rw [execAll_cons_of_next (hf s' hs), hall]

/-- Settles O28: after the two seedings the engines, the phases and `TAIL_MODE` agree, and no command but CONSTRUCT
reads more. -/
theorem sameSeedGivesTheSameStream : Obligations.SameSeedGivesTheSameStream := by
  intro words commands s s' t hle hc hmode h
  rw [execAll_cons_of_next (exec_seed_of_le s hle)] at h
  have hsame : (({ s with phase := .ready } : State).finish (s.engine.seeded words) []).SameInputs
      (({ s' with phase := .ready } : State).finish (s.engine.seeded words) []) := ⟨rfl, rfl, hmode⟩
  obtain ⟨t', responses, hall, hresp, hresp', heng⟩ := execAll_sameInputs hc hsame h
  refine ⟨t', 0x00 :: responses, ?_, by simp [hresp], by simp [hresp'], heng⟩
  rw [execAll_cons_of_next (exec_seed_padded s s' hle), hall]

end Sys2Proof.Machine
end

section
/-! PROOFS. The command port and the packing of byte strings: what a fetch gives the step, that decoding undoes encoding,
and where the bytes of a packed string stand (spec/20_memory.md R56, R60, R63; spec/30_encoding.md R70 to R81). -/

namespace Sys2Proof.Machine

/-! ## A step on a whole command, and on one that is not whole (R60, R63, R70) -/

theorem step_of_decode_ok {s : State} {i : Instr} {rest : List Word} (h : decode s.cmd = .ok (i, rest)) :
    step s = exec i { s with cmd := rest } := by
  simp only [step, fetch, h]

theorem step_of_decode_incomplete {s : State} (h : decode s.cmd = .error .incomplete) : step s = .next s := by
  simp only [step, fetch, h]

/-- Settles O5, by the fetch of a decoded command. -/
theorem stepRunsTheDecodedCommand : Obligations.StepRunsTheDecodedCommand :=
  fun _ _ _ => step_of_decode_ok

/-- Settles O7, by the fetch of a command that is not whole. -/
theorem incompleteCommandLeavesTheBlockIdle : Obligations.IncompleteCommandLeavesTheBlockIdle :=
  fun _ => step_of_decode_incomplete

/-! ## Packed byte strings (R56, R74) -/

/-- Unpacking a packed string gives it back, and then the zero bytes its last word was filled up with. -/
theorem unpackWords_packBytes : ∀ bytes : List Byte,
    ∃ pad, unpackWords (packBytes bytes) = bytes ++ List.replicate pad 0
  | [] => ⟨0, rfl⟩
  | [b0] => ⟨3, by simp [packBytes, unpackWords_cons, unpackWords_nil, le32_u32le]⟩
  | [b0, b1] => ⟨2, by simp [packBytes, unpackWords_cons, unpackWords_nil, le32_u32le]⟩
  | [b0, b1, b2] => ⟨1, by simp [packBytes, unpackWords_cons, unpackWords_nil, le32_u32le]⟩
  | b0 :: b1 :: b2 :: b3 :: rest => by
    obtain ⟨pad, ih⟩ := unpackWords_packBytes rest
    exact ⟨pad, by simp [packBytes, unpackWords_cons, le32_u32le, ih]⟩

theorem le32_getD (w : Word) {k : Nat} (h : k < 4) : (le32 w).getD k 0 = w.extractLsb' (8 * k) 8 := by
  interval_cases k <;> rfl

/-- Byte `p` of a sequence of words is byte lane `p mod 4` of word `p / 4`. -/
theorem unpackWords_getD (ws : List Word) {p : Nat} (h : p < 4 * ws.length) :
    (unpackWords ws).getD p 0 = (ws.getD (p / 4) 0).extractLsb' (8 * (p % 4)) 8 := by
  induction ws generalizing p with
  | nil => simp at h
  | cons w ws ih =>
    rw [unpackWords_cons]
    obtain hp | hp := Nat.lt_or_ge p 4
    · rw [List.getD_append _ _ _ _ hp, le32_getD w hp, Nat.div_eq_of_lt hp, Nat.mod_eq_of_lt hp, List.getD_cons_zero]
    · obtain ⟨q, rfl⟩ := Nat.exists_eq_add_of_le' hp
      have hq : q < 4 * ws.length := by simp only [List.length_cons] at h; omega
      rw [List.getD_append_right _ _ _ _ hp, le32_length, Nat.add_sub_cancel, ih hq, Nat.add_div_right q (by decide),
        Nat.add_mod_right, List.getD_cons_succ]

/-- Zeros after a list change none of the values read from it with the default 0. -/
theorem getD_append_zeros (bytes : List Byte) (pad p : Nat) :
    (bytes ++ List.replicate pad 0).getD p 0 = bytes.getD p 0 := by
  obtain hp | hp := Nat.lt_or_ge p bytes.length
  · rw [List.getD_append _ _ _ _ hp]
  · rw [List.getD_append_right _ _ _ _ hp, List.getD_eq_default _ _ hp, List.getD_eq_getElem?_getD, List.getElem?_getD_replicate_default_eq]

theorem packBytes_getD_extractLsb' (bytes : List Byte) {p : Nat} (h : p < 4 * (packBytes bytes).length) :
    ((packBytes bytes).getD (p / 4) 0).extractLsb' (8 * (p % 4)) 8 = bytes.getD p 0 := by
  obtain ⟨pad, hpad⟩ := unpackWords_packBytes bytes
  rw [← unpackWords_getD _ h, hpad, getD_append_zeros]

/-- Settles O38: the words unpack to the bytes and a zero pad, lane by lane. -/
theorem packedBytesStandInTheirWords : Obligations.PackedBytesStandInTheirWords :=
  fun bytes => ⟨packBytes_length bytes, fun _ => packBytes_getD_extractLsb' bytes⟩

/-! ## Decoding undoes encoding (R70, R76 to R82) -/

theorem decodeConstruct_optionWord (bits : Option Word) (nonblocking : Option Bool) (rest : List Word) :
    decodeConstruct (optionWord bits nonblocking :: bits.getD 0 :: rest) = .ok (.construct bits nonblocking, rest) := by
  cases bits <;> obtain _ | _ | _ := nonblocking <;> simp [decodeConstruct, optionWord]

theorem decodeSeed_append {words : List Word} (h : words.length < 2 ^ 32) (rest : List Word) :
    decodeSeed (BitVec.ofNat 32 words.length :: (words ++ rest)) = .ok (.seed words, rest) := by
  have hk : (BitVec.ofNat 32 words.length).toNat = words.length := Nat.mod_eq_of_lt h
  simp [decodeSeed, hk]

theorem take_unpackWords_packBytes (bytes : List Byte) :
    (unpackWords (packBytes bytes)).take bytes.length = bytes := by
  obtain ⟨pad, hpad⟩ := unpackWords_packBytes bytes
  rw [hpad, List.take_left]

theorem decodeStrfrom_packBytes {bag : List Byte} (h : bag.length < 2 ^ 32) (n : Word) (rest : List Word) :
    decodeStrfrom (BitVec.ofNat 32 bag.length :: n :: (packBytes bag ++ rest)) = .ok (.strfrom bag n, rest) := by
  have hlen : (BitVec.ofNat 32 bag.length).toNat = bag.length := Nat.mod_eq_of_lt h
  have hk : bagWords (BitVec.ofNat 32 bag.length) = (packBytes bag).length := by
    rw [bagWords, hlen, packBytes_length]
  simp [decodeStrfrom, hk, hlen, take_unpackWords_packBytes]

theorem decodeRanged_extractLsb' (range : BitVec 64) (count : Word) (rest : List Word) :
    decodeRanged (range.extractLsb' 0 32 :: range.extractLsb' 32 32 :: count :: rest) =
      .ok (.ranged range count, rest) := by
  have hrange : range.extractLsb' 32 32 ++ range.extractLsb' 0 32 = range :=
    BitVec.extractLsb'_append_extractLsb'
  simp [decodeRanged, hrange]

/-- Decoding the words of a well-formed command, whatever words follow, gives the command and those words. -/
theorem decode_encode_append {i : Instr} (h : wellFormed i = true) (rest : List Word) :
    decode (encode i ++ rest) = .ok (i, rest) := by
  cases i with
  | construct bits nonblocking => exact decodeConstruct_optionWord bits nonblocking rest
  | seed words => exact decodeSeed_append (of_decide_eq_true h) rest
  | next => rfl
  | bytes n => rfl
  | hex n => rfl
  | strfrom bag n => exact decodeStrfrom_packBytes (of_decide_eq_true h) n rest
  | ranged range count => exact decodeRanged_extractLsb' range count rest

/-- Settles O6: the decoder gives the offered command back, and the words behind it are those that waited. -/
theorem encodedCommandIsExecutedNext : Obligations.EncodedCommandIsExecutedNext :=
  fun _ s h => step_of_decode_ok (s := s.offer _) (decode_encode_append h s.cmd)

end Sys2Proof.Machine
end

section
/-! PROOFS. The rejection loop and its one stop: the draws of an engine run through finitely many states, so a loop that
has rejected as many draws as there are states rejects for ever (spec/44_ranged_sampling.md R193, R195;
spec/93_implementation_defined.md I15; notes/assumptions/3.md). -/

namespace Sys2Proof.Machine

/-! ## An engine repeats within `engineStates` draws -/

/-- The values of the six engine fields a draw reads; a memory is given by what each index reads. -/
abbrev DrawState := Word × Word × Word × (Index → Word) × (Index → Word) × Fin 257

/-- What a draw reads of an engine: all but `s0..s7`, which no draw changes (R126). -/
def Engine.drawState (e : Engine) : DrawState :=
  (e.ra, e.rb, e.rc, e.mem.read, e.rsl.read, e.cnt)

theorem card_drawState : Fintype.card DrawState = engineStates := by
  have hword : Fintype.card Word = 2 ^ 32 := FinEnum.card_eq_fintypeCard.symm
  have hindex : Fintype.card Index = 256 := FinEnum.card_eq_fintypeCard.symm
  simp only [Fintype.card_prod, Fintype.card_fun, Fintype.card_fin, hword, hindex]
  unfold engineStates
  rewrite [pow_mul]
  generalize 2 ^ 32 = w
  ring

namespace Engine

theorem eq_of_drawState_eq {e f : Engine} (h : e.drawState = f.drawState) (hmix : e.mix = f.mix) : e = f := by
  simp only [drawState, Prod.mk.injEq] at h
  obtain ⟨hra, hrb, hrc, hmem, hrsl, hcnt⟩ := h
  exact eq_of_fields hra hrb hrc hmix (Memory.ext_read (congrFun hmem)) (Memory.ext_read (congrFun hrsl)) hcnt

/-- Among the engines after 0 to `engineStates` draws two are the same, by the pigeonhole principle. -/
theorem exists_afterDraws_repeat (e : Engine) :
    ∃ a b, a < b ∧ b ≤ engineStates ∧ e.afterDraws a = e.afterDraws b := by
  obtain ⟨x, y, hne, hxy⟩ := Fintype.exists_ne_map_eq_of_card_lt
    (fun k : Fin (engineStates + 1) => (e.afterDraws k).drawState)
    (by rw [card_drawState, Fintype.card_fin]; exact Nat.lt_succ_self _)
  have heq : e.afterDraws x = e.afterDraws y :=
    eq_of_drawState_eq hxy ((afterDraws_mix e x).trans (afterDraws_mix e y).symm)
  obtain hlt | hlt := Nat.lt_or_gt_of_ne (Fin.val_ne_of_ne hne)
  · exact ⟨x, y, hlt, Nat.le_of_lt_succ y.isLt, heq⟩
  · exact ⟨y, x, hlt, Nat.le_of_lt_succ x.isLt, heq.symm⟩

/-- Every engine that draws lead to is met before `engineStates` draws: past a repetition the draws run through the same
engines again. -/
theorem exists_afterDraws_eq_lt (e : Engine) (d : Nat) :
    ∃ c, c < engineStates ∧ e.afterDraws c = e.afterDraws d := by
  obtain ⟨a, b, hab, hb, hrep⟩ := e.exists_afterDraws_repeat
  induction d using Nat.strong_induction_on with
  | h d ih =>
    obtain hd | hd := Nat.lt_or_ge d engineStates
    · exact ⟨d, hd, rfl⟩
    · obtain ⟨c, hc, heq⟩ := ih (a + (d - b)) (by omega)
      refine ⟨c, hc, ?_⟩
      calc e.afterDraws c = (e.afterDraws a).afterDraws (d - b) := by rw [heq, afterDraws_add]
        _ = e.afterDraws (b + (d - b)) := by rw [hrep, afterDraws_add]
        _ = e.afterDraws d := by rw [Nat.add_sub_of_le (hb.trans hd)]

/-- A rejection loop that finds nothing rejects every later draw too (R195). -/
theorem rejects_all_of_sample_eq_none {e : Engine} {range d : Nat} (h : e.sample range d = none) (j : Nat) :
    ¬ (e.nthDraw (j + 1)).toNat % d < range := by
  obtain ⟨c, hc, heq⟩ := e.exists_afterDraws_eq_lt j
  have hdraw : e.nthDraw (c + 1) = e.nthDraw (j + 1) := by simp only [nthDraw, Nat.add_sub_cancel, heq]
  rw [← hdraw]
  exact sampleWithin_none h (c + 1) (by omega) hc

/-! ## The accepted values (R193) -/

theorem accepted_add (e : Engine) (range c d : Nat) :
    e.accepted range (c + d) = e.accepted range c ++ (e.afterDraws c).accepted range d := by
  have hdraw (j : Nat) : (e.afterDraws c).nthDraw (j + 1) = e.nthDraw (c + j + 1) :=
    nthDraw_afterDraws e c (j + 1) (by omega)
  simp only [accepted, List.range_add, List.map_append, List.filter_append, List.map_map, Function.comp_def, hdraw]

theorem accepted_length_mono (e : Engine) (range : Nat) {c d : Nat} (h : c ≤ d) :
    (e.accepted range c).length ≤ (e.accepted range d).length := by
  obtain ⟨k, rfl⟩ := Nat.exists_eq_add_of_le h
  rw [accepted_add, List.length_append]
  exact Nat.le_add_right _ _

theorem accepted_eq_nil {e : Engine} {range d : Nat}
    (h : ∀ j, j < d → ¬ (e.nthDraw (j + 1)).toNat % divisor range < range) : e.accepted range d = [] := by
  simpa [accepted] using h

theorem accepted_one {e : Engine} {range : Nat} (h : (e.nthDraw 1).toNat % divisor range < range) :
    e.accepted range 1 = [(e.nthDraw 1).toNat % divisor range] := by
  simp [accepted, h]

/-- One sampled value is the only accepted one of the draws taken for it. -/
theorem accepted_of_sample_eq_some {e e' : Engine} {range r : Nat} (h : e.sample range (divisor range) = some (r, e')) :
    ∃ d, e.accepted range d = [r] ∧ e' = e.afterDraws d := by
  obtain ⟨k, -, hrej, rfl, hacc, rfl⟩ := sampleWithin_some h
  have hdraw : (e.afterDraws k).nthDraw 1 = e.nthDraw (k + 1) := nthDraw_afterDraws e k 1 (by omega)
  refine ⟨k + 1, ?_, rfl⟩
  rw [accepted_add, accepted_eq_nil fun j hj => hrej (j + 1) (by omega) hj, accepted_one (by rwa [hdraw]), hdraw,
    List.nil_append]

/-- The loop over `count` values gives the accepted ones of the draws it takes (R193). -/
theorem accepted_of_rangedRandoms_eq_some {e e' : Engine} {range count : Nat} {rs : List Nat}
    (h : e.rangedRandoms range count = some (rs, e')) : ∃ d, e.accepted range d = rs ∧ e' = e.afterDraws d := by
  rw [rangedRandoms] at h
  induction count generalizing e rs with
  | zero =>
    obtain ⟨rfl, rfl⟩ := Prod.mk.inj (Option.some.inj h)
    exact ⟨0, rfl, rfl⟩
  | succ count ih =>
    rw [samples_succ] at h
    obtain ⟨⟨r, e1⟩, hsample, h⟩ := Option.bind_eq_some_iff.mp h
    obtain ⟨⟨rs', e2⟩, hsamples, h⟩ := Option.map_eq_some_iff.mp h
    obtain ⟨rfl, rfl⟩ := Prod.mk.inj h
    obtain ⟨c, hc, rfl⟩ := accepted_of_sample_eq_some hsample
    obtain ⟨d, hd, rfl⟩ := ih hsamples
    exact ⟨c + d, by rw [accepted_add, hc, hd, List.singleton_append], (afterDraws_add e c d).symm⟩

/-- When the loop over `count` values finds no end, no number of draws has so many accepted values (R195). -/
theorem accepted_length_lt_of_rangedRandoms_eq_none {e : Engine} {range count : Nat}
    (h : e.rangedRandoms range count = none) (d : Nat) : (e.accepted range d).length < count := by
  rw [rangedRandoms] at h
  induction count generalizing e d with
  | zero => cases h
  | succ count ih =>
    cases hsample : e.sample range (divisor range) with
    | none =>
      rw [accepted_eq_nil fun j _ => rejects_all_of_sample_eq_none hsample j]
      exact Nat.succ_pos count
    | some p =>
      obtain ⟨c, hc, hp⟩ := accepted_of_sample_eq_some hsample
      rw [samples_succ, hsample, Option.bind_some, Option.map_eq_none_iff, hp] at h
      calc (e.accepted range d).length ≤ (e.accepted range (c + d)).length :=
            accepted_length_mono e range (Nat.le_add_left d c)
        _ = 1 + ((e.afterDraws c).accepted range d).length := by rw [accepted_add, hc]; exact List.length_append
        _ < count + 1 := by have := ih h d; omega

/-- Sampling has no answer exactly when no number of draws has enough accepted values (R195, I15). -/
theorem rangedRandoms_eq_none_iff (e : Engine) (range count : Nat) :
    e.rangedRandoms range count = none ↔ ∀ d, (e.accepted range d).length < count := by
  refine ⟨accepted_length_lt_of_rangedRandoms_eq_none, fun hlt => ?_⟩
  cases h : e.rangedRandoms range count with
  | none => rfl
  | some p =>
    obtain ⟨d, hd, -⟩ := accepted_of_rangedRandoms_eq_some h
    obtain ⟨hlen, -⟩ := samples_draws h
    have := hlt d
    rw [hd, hlen] at this
    exact absurd this (Nat.lt_irrefl _)

end Engine

end Sys2Proof.Machine
end

section
/-! PROOFS. Which commands complete: every command answers a next state but a RANGED or STRFROM whose rejection loop is
endless (spec/20_memory.md R60; spec/44_ranged_sampling.md R195). -/

namespace Sys2Proof.Machine

/-! ## What RANGED and STRFROM answer -/

theorem exec_ranged_of_zero {s : State} (hr : s.phase = .ready) {range : BitVec 64} (hzero : range.toNat = 0)
    (count : Word) : exec (.ranged range count) s = .next (s.raise .zeroRange) := by
  simp only [exec, execRanged, State.whenReady_of_ready hr, if_pos hzero]

theorem exec_ranged_of_gt {s : State} (hr : s.phase = .ready) {range : BitVec 64} (hmax : maxRange < range.toNat)
    (count : Word) : exec (.ranged range count) s = .next (s.raise .rangeTooLarge) := by
  have hzero : range.toNat ≠ 0 := by omega
  simp only [exec, execRanged, State.whenReady_of_ready hr, if_neg hzero, if_pos hmax]

/-- RANGED with a range of the domain samples: it stops with an endless loop, and else answers the values. -/
theorem exec_ranged_of_domain {s : State} (hr : s.phase = .ready) {range : BitVec 64} (h1 : 1 ≤ range.toNat)
    (h2 : range.toNat ≤ 2 ^ 32) (count : Word) :
    exec (.ranged range count) s =
      (s.engine.rangedRandoms range.toNat count.toNat).elim (.fault .rejectionNeverEnds)
        fun p => .next (s.finish p.2 (p.1.map (BitVec.ofNat 32))) := by
  have hzero : range.toNat ≠ 0 := by omega
  have hmax : ¬ maxRange < range.toNat := Nat.not_lt.mpr h2
  simp only [exec, execRanged, State.whenReady_of_ready hr, if_neg hzero, if_neg hmax]
  cases s.engine.rangedRandoms range.toNat count.toNat <;> rfl

theorem exec_strfrom_nil {s : State} (hr : s.phase = .ready) (n : Word) :
    exec (.strfrom [] n) s = .next (s.raise .emptyBag) := by
  simp only [exec, execStrfrom, State.whenReady_of_ready hr, List.length_nil, if_true]

/-- STRFROM with a bag samples: it stops with an endless loop, and else answers the octets at the values. -/
theorem exec_strfrom_of_ne_nil {s : State} (hr : s.phase = .ready) {bag : List Byte} (hbag : bag ≠ []) (n : Word) :
    exec (.strfrom bag n) s =
      (s.engine.rangedRandoms bag.length n.toNat).elim (.fault .rejectionNeverEnds)
        fun p => .next (s.finish p.2 (packBytes (p.1.map (bagOctet bag)))) := by
  have hlen : bag.length ≠ 0 := mt List.eq_nil_of_length_eq_zero hbag
  simp only [exec, execStrfrom, State.whenReady_of_ready hr, if_neg hlen]
  cases s.engine.rangedRandoms bag.length n.toNat <;> rfl

/-! ## Completion -/

/-- The command is a RANGED or STRFROM of a legal operand in phase `READY` for which no number of draws has enough
accepted values (R195, I15). -/
def Endless (i : Instr) (s : State) : Prop :=
  s.phase = .ready ∧
    ((∃ range count, i = .ranged range count ∧ 1 ≤ range.toNat ∧ range.toNat ≤ 2 ^ 32 ∧
        ∀ d, (s.engine.accepted range.toNat d).length < count.toNat) ∨
      (∃ bag n, i = .strfrom bag n ∧ bag ≠ [] ∧ ∀ d, (s.engine.accepted bag.length d).length < n.toNat))

theorem exec_of_endless {i : Instr} {s : State} (h : Endless i s) : exec i s = .fault .rejectionNeverEnds := by
  obtain ⟨hr, ⟨range, count, rfl, h1, h2, hlt⟩ | ⟨bag, n, rfl, hbag, hlt⟩⟩ := h
  · rw [exec_ranged_of_domain hr h1 h2, (Engine.rangedRandoms_eq_none_iff ..).mpr hlt, Option.elim_none]
  · rw [exec_strfrom_of_ne_nil hr hbag, (Engine.rangedRandoms_eq_none_iff ..).mpr hlt, Option.elim_none]

theorem exec_ranged_completes_or_endless {s : State} (hr : s.phase = .ready) (range : BitVec 64) (count : Word) :
    (∃ t, exec (.ranged range count) s = .next t) ∨ Endless (.ranged range count) s := by
  obtain hzero | h1 := Nat.eq_zero_or_pos range.toNat
  · exact .inl ⟨_, exec_ranged_of_zero hr hzero count⟩
  obtain h2 | hmax := le_or_gt range.toNat (2 ^ 32)
  · cases hloop : s.engine.rangedRandoms range.toNat count.toNat with
    | none =>
      exact .inr ⟨hr, .inl ⟨range, count, rfl, h1, h2, (Engine.rangedRandoms_eq_none_iff ..).mp hloop⟩⟩
    | some p => exact .inl ⟨_, by rw [exec_ranged_of_domain hr h1 h2, hloop, Option.elim_some]⟩
  · exact .inl ⟨_, exec_ranged_of_gt hr hmax count⟩

theorem exec_strfrom_completes_or_endless {s : State} (hr : s.phase = .ready) (bag : List Byte) (n : Word) :
    (∃ t, exec (.strfrom bag n) s = .next t) ∨ Endless (.strfrom bag n) s := by
  obtain rfl | hbag := eq_or_ne bag []
  · exact .inl ⟨_, exec_strfrom_nil hr n⟩
  cases hloop : s.engine.rangedRandoms bag.length n.toNat with
  | none => exact .inr ⟨hr, .inr ⟨bag, n, rfl, hbag, (Engine.rangedRandoms_eq_none_iff ..).mp hloop⟩⟩
  | some p => exact .inl ⟨_, by rw [exec_strfrom_of_ne_nil hr hbag, hloop, Option.elim_some]⟩

/-- A drawing command answers `NotSeeded` or is executed in phase `READY`; SEED and CONSTRUCT always answer. -/
theorem exec_completes_or_endless (i : Instr) (s : State) : (∃ t, exec i s = .next t) ∨ Endless i s := by
  cases hi : isDrawing i with
  | false =>
    obtain ⟨words, rfl⟩ | ⟨bits, nonblocking, rfl⟩ := seed_or_construct_of_not_isDrawing hi
    · exact .inl ⟨_, rfl⟩
    · exact .inl ⟨_, rfl⟩
  | true =>
    cases hp : s.phase with
    | unseeded => exact .inl ⟨_, exec_drawing_of_unseeded hi hp⟩
    | ready =>
      cases i with
      | construct _ _ => simp [isDrawing] at hi
      | seed _ => simp [isDrawing] at hi
      | next => exact .inl ⟨_, State.whenReady_of_ready hp _⟩
      | bytes n => exact .inl ⟨_, State.whenReady_of_ready hp _⟩
      | hex n => exact .inl ⟨_, State.whenReady_of_ready hp _⟩
      | strfrom bag n => exact exec_strfrom_completes_or_endless hp bag n
      | ranged range count => exact exec_ranged_completes_or_endless hp range count

/-- Settles O44: a command completes or its loop is endless, and an endless loop stops. -/
theorem everyCommandCompletesUnlessItsRejectionLoopIsEndless :
    Obligations.EveryCommandCompletesUnlessItsRejectionLoopIsEndless :=
  fun i s => ⟨(exec_completes_or_endless i s).resolve_right, exec_of_endless⟩

end Sys2Proof.Machine
end

section
/-! PROOFS. The length of a command: decoding waits for exactly the words of a command and takes them, and an illegal
command word is taken alone (spec/30_encoding.md R70 to R73, R78, R83). -/

namespace Sys2Proof.Machine

/-- Settles O1, by the decoder's answer to the encoding of each command. -/
theorem decodeOfEncodeIsTheCommand : Obligations.DecodeOfEncodeIsTheCommand :=
  fun _ rest h => decode_encode_append h rest

/-! ## The command word (R71, R72) -/

/-- A command word with a nonzero `RSV` or a reserved opcode: it is none of the seven opcodes (R72, R73). -/
def IllegalCommandWord (cw : Word) : Prop :=
  cw.toNat = 0 ∨ 8 ≤ cw.toNat

theorem commandWord_cases (cw : Word) :
    IllegalCommandWord cw ∨ cw = 0x01 ∨ cw = 0x02 ∨ cw = 0x03 ∨ cw = 0x04 ∨ cw = 0x05 ∨ cw = 0x06 ∨ cw = 0x07 := by
  rw [IllegalCommandWord]
  bv_omega

theorem decode_of_illegalCommandWord {cw : Word} (h : IllegalCommandWord cw) (rest : List Word) :
    ∃ err, err ≠ .incomplete ∧ decode (cw :: rest) = .error err := by
  rw [IllegalCommandWord] at h
  rw [decode]
  split
  · exact ⟨.reservedCommandBits, by decide, rfl⟩
  · split
    case h_8 => exact ⟨.reservedOpcode, by decide, rfl⟩
    all_goals omega

theorem commandLength_of_illegalCommandWord {cw : Word} (h : IllegalCommandWord cw) (arg0 : Word) :
    commandLength cw arg0 = 1 := by
  rw [IllegalCommandWord] at h
  rw [commandLength]
  split
  · rfl
  · split
    case h_8 => rfl
    all_goals omega

/-- A command word is illegal by its two fields, `RSV` in bits 31:8 and `OPC` in bits 7:0 (R71, R73). -/
theorem illegalCommandWord_of_fields {cw : Word}
    (h : cw.extractLsb' 8 24 ≠ 0 ∨ cw.extractLsb' 0 8 = 0x00 ∨ 0x08 ≤ (cw.extractLsb' 0 8).toNat) :
    IllegalCommandWord cw := by
  simp only [ne_eq, BitVec.toNat_eq, BitVec.extractLsb'_toNat, BitVec.ofNat_eq_ofNat, BitVec.toNat_ofNat,
    Nat.shiftRight_eq_div_pow] at h
  rw [IllegalCommandWord]
  omega

/-! ## Framing (R70, R83) -/

/-- An answer of the decoder to a stream of words is that to a command of `len` words: it waits for them while some
are missing, and else gives a command and the words behind them, or says by name why there is none. -/
def FramedBy (len : Nat) (ws : List Word) (d : Decoded) : Prop :=
  (ws.length < len ∧ d = .error .incomplete) ∨
    (len ≤ ws.length ∧ ((∃ i, d = .ok (i, ws.drop len)) ∨ ∃ err, err ≠ .incomplete ∧ d = .error err))

theorem FramedBy.cons {len : Nat} {ws : List Word} {d : Decoded} (h : FramedBy len ws d) (w : Word) :
    FramedBy (len + 1) (w :: ws) d := by
  simpa [FramedBy] using h

theorem FramedBy.of_missing {len : Nat} {ws : List Word} (h : ws.length < len) :
    FramedBy len ws (.error .incomplete) :=
  .inl ⟨h, rfl⟩

theorem FramedBy.of_ok {len : Nat} {ws : List Word} (h : len ≤ ws.length) (i : Instr) :
    FramedBy len ws (.ok (i, ws.drop len)) :=
  .inr ⟨h, .inl ⟨i, rfl⟩⟩

theorem FramedBy.of_illegal {len : Nat} {ws : List Word} {err : DecodeError} (h : len ≤ ws.length)
    (herr : err ≠ .incomplete) : FramedBy len ws (.error err) :=
  .inr ⟨h, .inr ⟨err, herr, rfl⟩⟩

/-- A payload of `k` words behind argument words. -/
theorem FramedBy.of_payload (k : Nat) (ws : List Word) (i : Instr) :
    FramedBy k ws (if ws.length < k then .error .incomplete else .ok (i, ws.drop k)) := by
  split
  · exact .of_missing ‹_›
  · exact .of_ok (Nat.le_of_not_lt ‹_›) i

/-- A set reserved option bit is seen before the words behind it are needed (R73, R78). -/
theorem decodeConstruct_of_reserved {arg0 : Word} (h : arg0 >>> 3 ≠ 0) (rest : List Word) :
    decodeConstruct (arg0 :: rest) = .error .reservedOptionBits :=
  if_pos h

theorem decodeConstruct_of_one {arg0 : Word} (h : ¬ arg0 >>> 3 ≠ 0) : decodeConstruct [arg0] = .error .incomplete :=
  if_neg h

theorem decodeConstruct_of_two {arg0 : Word} (h : ¬ arg0 >>> 3 ≠ 0) (arg1 : Word) (rest : List Word) :
    ∃ i, decodeConstruct (arg0 :: arg1 :: rest) = .ok (i, rest) :=
  ⟨_, if_neg h⟩

theorem decodeConstruct_framedBy (ws : List Word) :
    FramedBy (if ws.getD 0 0 >>> 3 ≠ 0 then 0 else 2) ws (decodeConstruct ws) := by
  match ws with
  | [] => exact .of_missing (by decide)
  | arg0 :: rest =>
    rw [List.getD_cons_zero]
    split <;> rename_i h
    · rw [decodeConstruct_of_reserved h]
      exact .of_illegal (Nat.zero_le _) (by decide)
    · match rest with
      | [] => rw [decodeConstruct_of_one h]; exact .of_missing (by simp)
      | arg1 :: rest =>
        obtain ⟨i, hi⟩ := decodeConstruct_of_two h arg1 rest
        rw [hi]
        exact .of_ok (ws := arg0 :: arg1 :: rest) (by simp) i

theorem decodeSeed_framedBy (ws : List Word) : FramedBy (1 + (ws.getD 0 0).toNat) ws (decodeSeed ws) := by
  match ws with
  | [] => exact .of_missing (by decide)
  | arg0 :: rest =>
    rw [Nat.add_comm]
    exact (FramedBy.of_payload arg0.toNat rest _).cons arg0

theorem decodeLength_framedBy (op : Word → Instr) (ws : List Word) : FramedBy 1 ws (decodeLength op ws) := by
  match ws with
  | [] => exact .of_missing (by decide)
  | arg0 :: rest => exact .of_ok (ws := arg0 :: rest) (by simp) _

theorem decodeStrfrom_framedBy (ws : List Word) :
    FramedBy (2 + bagWords (ws.getD 0 0)) ws (decodeStrfrom ws) := by
  match ws with
  | [] => exact .of_missing (by simp)
  | [arg0] => exact .of_missing (by rw [List.length_singleton]; omega)
  | arg0 :: arg1 :: rest =>
    rw [Nat.add_comm]
    exact ((FramedBy.of_payload (bagWords arg0) rest _).cons arg1).cons arg0

theorem decodeRanged_framedBy (ws : List Word) : FramedBy 3 ws (decodeRanged ws) := by
  match ws with
  | [] => exact .of_missing (by decide)
  | [_] => exact .of_missing (by simp)
  | [_, _] => exact .of_missing (by simp)
  | arg0 :: arg1 :: arg2 :: rest => exact .of_ok (ws := arg0 :: arg1 :: arg2 :: rest) (by simp) _

/-- The decoder takes and waits for the words `commandLength` counts. -/
theorem decode_framedBy (ws : List Word) : FramedBy (commandLength (ws.getD 0 0) (ws.getD 1 0)) ws (decode ws) := by
  match ws with
  | [] => exact .of_missing (by decide)
  | cw :: rest =>
    rw [List.getD_cons_zero, List.getD_cons_succ]
    obtain h | rfl | rfl | rfl | rfl | rfl | rfl | rfl := commandWord_cases cw
    · obtain ⟨err, herr, hd⟩ := decode_of_illegalCommandWord h rest
      rw [commandLength_of_illegalCommandWord h, hd]
      exact .of_illegal (by simp) herr
    · have hlen : commandLength 0x01 (rest.getD 0 0) = (if rest.getD 0 0 >>> 3 ≠ 0 then 0 else 2) + 1 := by
        rw [apply_ite (· + 1)]
        rfl
      rw [hlen]
      exact (decodeConstruct_framedBy rest).cons _
    · have hlen : commandLength 0x02 (rest.getD 0 0) = 1 + (rest.getD 0 0).toNat + 1 := Nat.add_right_comm 1 1 _
      rw [hlen]
      exact (decodeSeed_framedBy rest).cons _
    · exact .of_ok (ws := 0x03 :: rest) (by simp [commandLength]) .next
    · exact (decodeLength_framedBy .bytes rest).cons _
    · exact (decodeLength_framedBy .hex rest).cons _
    · have hlen : commandLength 0x06 (rest.getD 0 0) = 2 + bagWords (rest.getD 0 0) + 1 := Nat.add_right_comm 2 1 _
      rw [hlen]
      exact (decodeStrfrom_framedBy rest).cons _
    · exact (decodeRanged_framedBy rest).cons _

/-- Settles O2: of the framed answers only a whole command is `ok`. -/
theorem decodeTakesTheCommandsWords : Obligations.DecodeTakesTheCommandsWords := by
  intro ws rest i h
  obtain ⟨-, hd⟩ | ⟨hlen, ⟨j, hd⟩ | ⟨err, -, hd⟩⟩ := decode_framedBy ws <;> rw [h] at hd
  · cases hd
  · obtain ⟨rfl, hrest⟩ := Prod.mk.inj (Except.ok.inj hd)
    exact ⟨hlen, hrest⟩
  · cases hd

/-- Settles O3: of the framed answers only the one to a stream with missing words is `incomplete`. -/
theorem decodeWaitsExactlyForMissingWords : Obligations.DecodeWaitsExactlyForMissingWords := by
  intro ws
  obtain ⟨hlen, hd⟩ | ⟨hlen, ⟨j, hd⟩ | ⟨err, herr, hd⟩⟩ := decode_framedBy ws <;> rw [hd]
  · exact iff_of_true rfl hlen
  · exact iff_of_false (by simp) (Nat.not_lt.mpr hlen)
  · exact iff_of_false (by simpa using herr) (Nat.not_lt.mpr hlen)

/-! ## Illegal commands (R73) -/

theorem step_of_decode_error {s : State} {err : DecodeError} (h : decode s.cmd = .error err)
    (herr : err ≠ .incomplete) : step s = .next (({ s with cmd := s.cmd.tail } : State).raise .illegalCommand) := by
  cases err with
  | incomplete => exact absurd rfl herr
  | _ => simp only [step, fetch, h]

/-- A set bit in 31:3 of the option word is left by a shift by 3 (R78). -/
theorem ushiftRight_three_ne_zero {arg0 : Word} (h : arg0.extractLsb' 3 29 ≠ 0) : arg0 >>> 3 ≠ 0 := by
  intro hshift
  apply h
  rw [← BitVec.setWidth_ushiftRight_eq_extractLsb, hshift]
  rfl

/-- Settles O4: each of the four forms is an error of the decoder other than `incomplete`. -/
theorem illegalWordIsTakenAloneAndAnswered : Obligations.IllegalWordIsTakenAloneAndAnswered := by
  intro s cw rest hcmd h
  have hdecode : ∃ err, err ≠ .incomplete ∧ decode (cw :: rest) = .error err := by
    obtain h | h | h | ⟨rfl, arg0, arg1, more, rfl, hbits⟩ := h
    · exact decode_of_illegalCommandWord (illegalCommandWord_of_fields (.inl h)) rest
    · exact decode_of_illegalCommandWord (illegalCommandWord_of_fields (.inr (.inl h))) rest
    · exact decode_of_illegalCommandWord (illegalCommandWord_of_fields (.inr (.inr h))) rest
    · exact ⟨_, by decide, decodeConstruct_of_reserved (ushiftRight_three_ne_zero hbits) (arg1 :: more)⟩
  obtain ⟨err, herr, hd⟩ := hdecode
  rw [step_of_decode_error (hcmd ▸ hd) herr, hcmd]
  rfl

end Sys2Proof.Machine
end

section
/-! PROOFS. The responses: every command that completes answers one status word and a payload only after `OK`, an
illegal `bits` is answered before the provider is used, and no command is refused (spec/30_encoding.md R72, R74, R75,
R78; spec/43_facade_output.md R171, R172; spec/60_exceptions.md R210, R214). -/

namespace Sys2Proof.Machine

/-- The state after a command answers: one status, and a payload only after `OK` (R74, R210). -/
def State.Answers (s t : State) : Prop :=
  ∃ (st : Status) (payload : List Word), t.resp = s.resp ++ st.word :: payload ∧ (st ≠ .ok → payload = [])

theorem State.raise_answers (s : State) (st : Status) : s.Answers (s.raise st) :=
  ⟨st, [], rfl, fun _ => rfl⟩

theorem State.finish_answers (s : State) (e : Engine) (payload : List Word) : s.Answers (s.finish e payload) :=
  ⟨.ok, payload, rfl, fun h => absurd rfl h⟩

/-- Every command that completes answers. -/
theorem exec_answers {i : Instr} {s t : State} (h : exec i s = .next t) : s.Answers t := by
  cases hi : isDrawing i with
  | true =>
    obtain ⟨st, -, rfl⟩ | ⟨-, d, payload, rfl⟩ := exec_drawing_cases hi h
    · exact s.raise_answers st
    · exact s.finish_answers _ payload
  | false =>
    obtain ⟨words, rfl⟩ | ⟨bits, nonblocking, rfl⟩ := seed_or_construct_of_not_isDrawing hi
    · obtain ⟨-, he⟩ | ⟨-, he⟩ := execSeed_cases words s <;>
        obtain rfl := Host.Outcome.next.inj (h.symm.trans he)
      · exact s.raise_answers _
      · exact State.finish_answers { s with phase := .ready } _ []
    · obtain ⟨q, -, ⟨st, -, rfl⟩ | ⟨-, words, rfl⟩⟩ := exec_construct_cases h
      · exact State.raise_answers { s with entropy := q } st
      · exact State.finish_answers { s with entropy := q, cfgBits := bitsOperand bits, phase := .ready } _ []

/-- A status word is one of the table (R75). -/
theorem Status.word_mem_table (st : Status) :
    st.word ∈ ([0x00, 0x01, 0x02, 0x03, 0x04, 0x05, 0x06, 0x80, 0x81, 0x82] : List Word) := by
  cases st <;> decide

/-- Settles O10: a step executes a command, idles, or answers `IllegalCommand`. -/
theorem everyCommandAnswersWithOneStatus : Obligations.EveryCommandAnswersWithOneStatus := by
  intro s t h
  refine or_iff_not_imp_left.mpr fun hne => ?_
  have hanswers : s.Answers t := by
    obtain ⟨i, rest, -, he⟩ | rfl | rfl := step_cases h
    · exact exec_answers (s := { s with cmd := rest }) he
    · exact absurd rfl hne
    · exact State.raise_answers { s with cmd := s.cmd.tail } _
  obtain ⟨st, payload, hresp, hpayload⟩ := hanswers
  exact ⟨st.word, payload, hresp, st.word_mem_table, fun hw => hpayload (mt (Status.word_eq_zero_iff st).mpr hw)⟩

/-- Settles O15: the check of `bits` comes before the provider. -/
theorem illegalBitsAnswerInvalidOption : Obligations.IllegalBitsAnswerInvalidOption := by
  intro s arg1 nonblocking h
  have hinvalid : validBits (bitsOperand (some arg1)) = false :=
    Bool.eq_false_of_not_eq_true (mt (validBits_iff_mem_legalBits _).mp h)
  exact exec_construct_of_invalid nonblocking s hinvalid

/-- Settles O16: a command completes or stops with the fault of an endless loop. -/
theorem noCommandIsRefused : Obligations.NoCommandIsRefused := by
  intro i s r h
  obtain ⟨t, ht⟩ | hloop := exec_completes_or_endless i s
  · cases h.symm.trans ht
  · cases h.symm.trans (exec_of_endless hloop)

end Sys2Proof.Machine
end

section
/-! PROOFS. Byte strings and their hexadecimal text: what EMIT_BYTES gives in the terms of the statements, the digits of
a byte, and HEX (spec/20_memory.md R57; spec/30_encoding.md R88; spec/43_facade_output.md R175 to R179). -/

namespace Sys2Proof.Machine

/-! ## EMIT_BYTES (R175 to R177) -/

/-- A field of a field is a field. -/
theorem extractLsb'_of_extractLsb' {w m k : Nat} (v : BitVec w) {a b : Nat} (h : b + k ≤ m) :
    (v.extractLsb' a m).extractLsb' b k = v.extractLsb' (a + b) k := by
  ext i hi
  have hlt : b + i < m := by omega
  simp [hlt, Nat.add_assoc]

/-- The middle chunk of a tail is bits 15:8 and then 23:16 of its word (R57, R176). -/
theorem le16_middleChunk (v : Word) :
    le16 (((v >>> 8) &&& 0xFFFF).setWidth 16) = [v.extractLsb' 8 8, v.extractLsb' 16 8] := by
  have hmask : (0xFFFF : Word).setWidth 16 = BitVec.allOnes 16 := by decide
  rw [BitVec.setWidth_and, hmask, BitVec.and_allOnes, BitVec.setWidth_ushiftRight_eq_extractLsb, le16,
    extractLsb'_of_extractLsb' v (by decide), extractLsb'_of_extractLsb' v (by decide)]

/-- The last byte of an odd tail is bits 7:0 of its word (R176). -/
theorem setWidth_and_ff (v : Word) : (v &&& 0xFF).setWidth 8 = v.extractLsb' 0 8 := by
  simpa using setWidth_ushiftRight_and_ff v 0

/-- How many draws a tail of `r` bytes takes (R177). -/
def tailDraws (mode : TailMode) (r : Nat) : Nat :=
  (if r ≠ 0 then 1 else 0) + (if r = 3 ∧ mode = .separate then 1 else 0)

theorem byteDraws_eq (mode : TailMode) (n : Nat) : byteDraws mode n = n / 4 + tailDraws mode (n % 4) :=
  Nat.add_assoc ..

/-- A tail is the octets of its one or two draws. -/
theorem Engine.tail_eq (e : Engine) (mode : TailMode) {r : Nat} (h : r < 4) :
    e.tail mode r = (tailOctets mode r (e.nthDraw 1) (e.nthDraw 2), e.afterDraws (tailDraws mode r)) := by
  have hsecond : e.advance.nthDraw 1 = e.nthDraw 2 := nthDraw_afterDraws e 1 1 le_rfl
  simp only [Engine.tail, Engine.draw_eq, hsecond, le16_middleChunk]
  cases mode <;> interval_cases r <;> simp only [setWidth_and_ff] <;> rfl

/-- EMIT_BYTES gives the byte string and takes its draws. -/
theorem Engine.emitBytes_eq (e : Engine) (mode : TailMode) (n : Nat) :
    e.emitBytes mode n = (e.byteString mode n, e.afterDraws (byteDraws mode n)) := by
  have hdraw (k : Nat) : (e.afterDraws (n / 4)).nthDraw (k + 1) = e.nthDraw (n / 4 + k + 1) :=
    Engine.nthDraw_afterDraws e (n / 4) (k + 1) (by omega)
  simp only [Engine.emitBytes, Engine.drawMany_eq, Engine.tail_eq _ mode (Nat.mod_lt n (by decide : 4 > 0)), hdraw,
    Engine.byteString, byteDraws_eq, Engine.afterDraws_add, List.flatMap_map]

theorem tailOctets_length (mode : TailMode) {r : Nat} (h : r < 4) (v w : Word) :
    (tailOctets mode r v w).length = r := by
  cases mode <;> interval_cases r <;> rfl

theorem Engine.byteString_length (e : Engine) (mode : TailMode) (n : Nat) : (e.byteString mode n).length = n := by
  have hmod : n % 4 < 4 := Nat.mod_lt n (by decide)
  simp only [Engine.byteString, List.length_append, List.length_flatMap, le32_length, tailOctets_length mode hmod,
    List.map_const', List.sum_replicate, List.length_range, smul_eq_mul]
  omega

/-! ## Hexadecimal text (R88, R179) -/

theorem hexText_length (b : Byte) : (hexText b).length = 2 := rfl

/-- The digits the block computes are the letters of the table. -/
theorem hexDigits_eq_hexText (b : Byte) : hexDigits b = hexText b := by
  revert b
  decide

/-- Settles O37, by EMIT_BYTES and the two digits of a byte. -/
theorem hexReturnsTheByteStringAsText : Obligations.HexReturnsTheByteStringAsText := by
  intro s n hr
  constructor
  · simp only [List.length_flatMap, hexText_length, List.map_const', List.sum_replicate, smul_eq_mul,
      Engine.byteString_length, Nat.mul_comm]
  · have hdigits : hexDigits = hexText := funext hexDigits_eq_hexText
    simp only [exec, execHex, State.whenReady_of_ready hr, Engine.emitBytes_eq, hdigits]
    rfl

end Sys2Proof.Machine
end

section
/-! PROOFS. The requests of an EGD read: the loop sends one request a chunk (spec/30_encoding.md R87;
spec/42_entropy_provider.md R157, R159). -/

namespace Sys2Proof.Machine

/-- The request for a chunk of `c` bytes (R87). -/
def chunkRequest (c : Nat) : Action :=
  .exchange (egdRequest c) c

/-- The first chunk is as much as one request may ask for, and the rest is split in the same way (R157). -/
theorem chunkSizes_of_ne_zero {n : Nat} (h : n ≠ 0) :
    chunkSizes n = min egdChunkMax n :: chunkSizes (n - min egdChunkMax n) := by
  obtain hlt | hge := Nat.lt_or_ge n 255
  · have hmin : min egdChunkMax n = n := Nat.min_eq_right (Nat.le_of_lt hlt)
    simp [hmin, chunkSizes, Nat.div_eq_of_lt hlt, Nat.mod_eq_of_lt hlt, h]
  · have hmin : min egdChunkMax n = 255 := Nat.min_eq_left hge
    obtain ⟨m, rfl⟩ := Nat.exists_eq_add_of_le' hge
    simp [hmin, chunkSizes, List.replicate_succ]

/-- A loop that collects all its bytes has sent its first request, and goes on to collect the rest. -/
theorem egdLoop_succ_eq_some {turns need : Nat} {q q' : EntropyPort} {bytes : List Byte} (hneed : need ≠ 0)
    (h : egdLoop (turns + 1) need q = (some bytes, q')) :
    ∃ rest, egdLoop turns (need - min egdChunkMax need) (q.take.2.note (chunkRequest (min egdChunkMax need))) =
      (some rest, q') := by
  rw [egdLoop, if_neg hneed] at h
  dsimp only at h
  split at h
  · cases h
  · obtain ⟨hbytes, hq⟩ := Prod.mk.inj h
    obtain ⟨rest, hrest, -⟩ := Option.map_eq_some_iff.mp hbytes
    exact ⟨rest, Prod.ext hrest hq⟩

/-- A loop that collects all its bytes has sent the request of each chunk in turn. -/
theorem egdLoop_log {turns need : Nat} {q q' : EntropyPort} {bytes : List Byte} (hturns : need ≤ turns)
    (h : egdLoop turns need q = (some bytes, q')) : q'.log = q.log ++ (chunkSizes need).map chunkRequest := by
  induction turns generalizing need q bytes with
  | zero =>
    obtain rfl := Nat.le_zero.mp hturns
    obtain ⟨-, rfl⟩ := Prod.mk.inj h
    exact (List.append_nil _).symm
  | succ turns ih =>
    obtain rfl | hneed := eq_or_ne need 0
    · obtain ⟨-, rfl⟩ := Prod.mk.inj h
      exact (List.append_nil _).symm
    · obtain ⟨rest, hrest⟩ := egdLoop_succ_eq_some hneed h
      have hshorter : need - min egdChunkMax need ≤ turns := by rw [egdChunkMax]; omega
      rw [ih hshorter hrest, chunkSizes_of_ne_zero hneed]
      simp

/-- An EGD read that succeeds has connected, run its loop and closed its socket. -/
theorem readEgd_eq_some {path : EgdPath} {n : Nat} {q q' : EntropyPort} {bytes : List Byte}
    (h : readEgd path n q = (some bytes, q')) :
    ∃ q1, egdLoop n n (q.take.2.note (.connect path true)) = (some bytes, q1) ∧ q' = q1.note (.disconnect path) := by
  unfold readEgd at h
  split at h <;> rename_i htake
  · cases h
  · obtain ⟨hbytes, hq⟩ := Prod.mk.inj h
    rw [htake]
    exact ⟨_, Prod.ext hbytes rfl, hq.symm⟩

/-- Settles O56: the connection, the requests of the loop, and the close. -/
theorem egdReadSendsTheChunkRequests : Obligations.EgdReadSendsTheChunkRequests := by
  intro path n q q' bytes h
  obtain ⟨q1, hloop, rfl⟩ := readEgd_eq_some h
  rw [EntropyPort.note_log, egdLoop_log le_rfl hloop, EntropyPort.note_log, EntropyPort.take_log]
  rfl

end Sys2Proof.Machine
end

section
/-! PROOFS. The assembler on the lines the spec gives (spec/30_encoding.md R84, R85, example encodings). -/

namespace Sys2Proof.Machine

/-- Settles O9, by running the assembler on each line. -/
theorem assemblyExamplesEncode : Obligations.AssemblyExamplesEncode := by
  unfold Obligations.AssemblyExamplesEncode
  decide

end Sys2Proof.Machine
end

section
/-! PROOFS. RANDINIT step by step: what one group of a pass does, the passes as their 32 groups, and the set-up of the
mixing registers (spec/40_engine_init.md R100 to R106; spec/95_test_vectors.md V1, V2). -/

namespace Sys2Proof.Machine

/-! ## One group of a pass (R104) -/

theorem MixRegs.words_addGroup (s : MixRegs) (m : Memory) (i : Index) {t : Nat} (h : t < 8) :
    (s.addGroup m i).words.getD t 0 = s.words.getD t 0 + m.read (i + BitVec.ofNat 8 t) := by
  interval_cases t <;> simp [words, addGroup]

theorem Memory.read_writeGroup (m : Memory) (i : Index) (s : MixRegs) {t : Nat} (h : t < 8) :
    (m.writeGroup i s).read (i + BitVec.ofNat 8 t) = s.words.getD t 0 := by
  interval_cases t <;> simp [writeGroup, read_write, MixRegs.words]

theorem Memory.read_writeGroup_of_not_mem (m : Memory) {i q : Index} (s : MixRegs) (h : q ∉ groupIndices i) :
    (m.writeGroup i s).read q = m.read q := by
  simp only [groupIndices, List.mem_cons, List.not_mem_nil, or_false, not_or, ne_comm (a := q)] at h
  simp only [writeGroup, read_write, h, if_false]

theorem div_eight_of_mem_groupIndices {q : Index} {g : Nat} (hg : g < 32)
    (h : q ∈ groupIndices (BitVec.ofNat 8 (8 * g))) : q.toNat / 8 = g := by
  simp only [groupIndices, List.mem_cons, List.not_mem_nil, or_false] at h
  bv_omega

/-- One iteration of a pass does what R104 says of its group, whichever memory it folds. -/
theorem Engine.foldGroup_foldsGroup (e : Engine) (source : Memory) {g : Nat} (hg : g < 32) :
    e.FoldsGroup (e.foldGroup source (BitVec.ofNat 8 (8 * g))) source g := by
  simp only [FoldsGroup, BitVec.ofNat_add]
  exact ⟨⟨e.mix.addGroup source _, fun _ ht => MixRegs.words_addGroup e.mix source _ ht, rfl⟩,
    fun _ ht => Memory.read_writeGroup e.mem _ _ ht,
    fun _ hq => Memory.read_writeGroup_of_not_mem e.mem _ fun hmem => hq (div_eight_of_mem_groupIndices hg hmem),
    foldGroup_frame e source _⟩

/-! ## RANDINIT is the set-up, the 32 groups of each pass, and a refill round -/

theorem Engine.passOne_eq_afterGroupsOne (e : Engine) : e.passOne = e.afterGroupsOne 32 := by
  rw [passOne, groups, afterGroupsOne]

theorem Engine.passTwo_eq_afterGroupsTwo (e : Engine) : e.passTwo = e.afterGroupsTwo 32 := by
  rw [passTwo, groups, afterGroupsTwo]

/-! ## SEED (R106) -/

theorem Engine.loadSeed_rsl_read_eq_padded (e : Engine) (seed : List Word) (t : Index) :
    (e.loadSeed seed).rsl.read t = if t.toNat < seed.length then seed.getD t.toNat 0 else 0 := by
  rw [loadSeed_rsl_read]
  split
  · rfl
  · next h => exact List.getD_eq_default _ _ (Nat.le_of_not_lt h)

theorem State.finish_nil_eq (s : State) (e : Engine) :
    s.finish e [] = { s with engine := e, resp := s.resp ++ [0x00] } := by
  simp [finish, reply]

theorem State.raise_invalidSeed_eq (s : State) :
    s.raise .invalidSeed = { s with resp := s.resp ++ [0x06] } := rfl

/-- Settles O23: loading fills `rsl` with the padded seed, and each pass of RANDINIT is its 32 groups, one
`foldGroup` each. -/
theorem seedLoadsThePaddedSeedAndInitialises : Obligations.SeedLoadsThePaddedSeedAndInitialises := by
  refine ⟨fun s words => ⟨fun hle => ?_, fun hgt => ?_⟩, fun e => ?_, fun e g hg => ⟨?_, ?_⟩⟩
  · refine ⟨(s.engine.loadSeed words).rsl, s.engine.loadSeed_rsl_read_eq_padded words, ?_⟩
    rw [exec_seed_of_le s hle, State.finish_nil_eq]
    rfl
  · rw [exec_seed_of_gt s hgt, State.raise_invalidSeed_eq]
  · rw [Engine.randinit_eq, Engine.passOne_eq_afterGroupsOne, Engine.passTwo_eq_afterGroupsTwo]
  · rw [Engine.afterGroupsOne_succ]
    exact Engine.foldGroup_foldsGroup _ _ hg
  · rw [Engine.afterGroupsTwo_succ]
    exact Engine.foldGroup_foldsGroup _ _ hg

/-! ## The set-up of the mixing registers (R100 to R102) -/

/-- Settles O24, by running MIX. -/
theorem mixingRegistersStartAsTabulated : Obligations.MixingRegistersStartAsTabulated := by
  unfold Obligations.MixingRegistersStartAsTabulated
  simp only [MixRegs.setUp, MixRegs.stir, golden]
  decide

end Sys2Proof.Machine
end

section
/-! PROOFS. The refill round: what one step writes and reads, the steps of a round one after the other, and that a round
forgets the output buffer before it (spec/41_engine_refill.md R121 to R124). -/

namespace Sys2Proof.Machine

namespace Engine

/-! ## One step (R121) -/

/-- Step 3. -/
theorem refillStep_ra (e : Engine) (p : Index) : (e.refillStep p).ra = barrel p e.ra + e.mem.read (p + 128) := rfl

/-- Step 4. -/
theorem refillStep_mem_read_self (e : Engine) (p : Index) :
    (e.refillStep p).mem.read p = e.mem.read (stepFourIndex (e.mem.read p)) + (e.refillStep p).ra + e.rb :=
  Memory.read_write_self ..

/-- Step 5 reads `mem` as step 4 has left it (R122). -/
theorem refillStep_rb (e : Engine) (p : Index) :
    (e.refillStep p).rb =
      (e.refillStep p).mem.read (stepFiveIndex ((e.refillStep p).mem.read p)) + e.mem.read p := by
  rw [refillStep_mem_read_self]
  rfl

theorem refillStep_rsl_read_self (e : Engine) (p : Index) : (e.refillStep p).rsl.read p = (e.refillStep p).rb :=
  Memory.read_write_self ..

theorem refillStep_rsl_of_ne (e : Engine) {p q : Index} (h : p ≠ q) : (e.refillStep p).rsl.read q = e.rsl.read q :=
  Memory.read_write_of_ne _ _ h

/-! ## The first steps of a round (R122) -/

theorem afterSteps_toNat_succ (e : Engine) (p : Index) :
    e.afterSteps (p.toNat + 1) = (e.afterSteps p.toNat).refillStep p := by
  rw [afterSteps_succ, BitVec.ofNat_toNat, BitVec.setWidth_eq]

/-- The next step leaves every word of `mem` but the one at its own position. -/
theorem afterSteps_succ_mem_read_of_ne (e : Engine) {k : Nat} {q : Index} (hk : k < 256) (h : k ≠ q.toNat) :
    (e.afterSteps (k + 1)).mem.read q = (e.afterSteps k).mem.read q := by
  rw [afterSteps_succ, refillStep_mem_of_ne]
  rintro rfl
  exact h (BitVec.toNat_ofNat k 8 ▸ (Nat.mod_eq_of_lt hk).symm)

theorem afterSteps_succ_rsl_read (e : Engine) (k : Nat) :
    (e.afterSteps (k + 1)).rsl.read (BitVec.ofNat 8 k) = (e.afterSteps (k + 1)).rb := by
  rw [afterSteps_succ, refillStep_rsl_read_self]

/-- A position the round has not reached holds its word from before the round. -/
theorem afterSteps_mem_read_of_le (e : Engine) {k : Nat} {q : Index} (h : k ≤ q.toNat) :
    (e.afterSteps k).mem.read q = e.mem.read q := by
  induction k with
  | zero => rfl
  | succ k ih =>
    have hq := q.isLt
    rw [afterSteps_succ_mem_read_of_ne e (by omega) (by omega), ih (by omega)]

/-- A position the round has passed holds the word its own step wrote. -/
theorem afterSteps_mem_read_of_lt (e : Engine) {k : Nat} {q : Index} (h : q.toNat < k) (hk : k ≤ 256) :
    (e.afterSteps k).mem.read q = (e.afterSteps (q.toNat + 1)).mem.read q := by
  induction k, h using Nat.le_induction with
  | base => rfl
  | succ k hq ih => rw [afterSteps_succ_mem_read_of_ne e (by omega) (by omega), ih (by omega)]

/-! ## The whole round (R121, R123) -/

theorem isaac_eq_afterSteps (e : Engine) :
    e.isaac =
      { ({ e with rc := e.rc + 1, rb := e.rb + (e.rc + 1) } : Engine).afterSteps 256 with cnt := 255 } := by
  rw [isaac_eq, positions, afterSteps]

/-- The last step of the round writes the new `rb` to `rsl[255]`. -/
theorem isaac_rsl_read_last (e : Engine) : e.isaac.rsl.read 255 = e.isaac.rb := by
  rw [isaac_eq_afterSteps]
  generalize ({ e with rc := e.rc + 1, rb := e.rb + (e.rc + 1) } : Engine) = start
  exact start.afterSteps_succ_rsl_read 255

/-- Steps from another output buffer differ in the output buffer alone, and there only where no step wrote. -/
theorem foldl_refillStep_withRsl (ps : List Index) (e : Engine) (rsl : Memory) :
    ∃ rsl' : Memory, ps.foldl refillStep { e with rsl := rsl } = { ps.foldl refillStep e with rsl := rsl' } ∧
      ∀ q, (q ∈ ps ∨ rsl.read q = e.rsl.read q) → rsl'.read q = (ps.foldl refillStep e).rsl.read q := by
  induction ps generalizing e rsl with
  | nil => exact ⟨rsl, rfl, by simp⟩
  | cons p ps ih =>
    obtain ⟨rsl', heq, hread⟩ := ih (e.refillStep p) (rsl.write p (e.refillStep p).rb)
    refine ⟨rsl', heq, fun q hq => hread q ?_⟩
    rw [refillStep_rsl, Memory.read_write, Memory.read_write]
    by_cases hp : p = q
    · simp [hp]
    · simpa [hp, Ne.symm hp] using hq

/-- A refill round forgets the output buffer before it (R123). -/
theorem isaac_withRsl (e : Engine) (rsl : Memory) : ({ e with rsl := rsl } : Engine).isaac = e.isaac := by
  obtain ⟨rsl', heq, hread⟩ :=
    foldl_refillStep_withRsl positions { e with rc := e.rc + 1, rb := e.rb + (e.rc + 1) } rsl
  rw [isaac_eq, isaac_eq, heq, Memory.ext_read fun q => hread q (.inl (mem_positions q))]

/-! ## Refill rounds one after the other (R124) -/

theorem afterRounds_succ' (e : Engine) (r : Nat) : e.afterRounds (r + 1) = (e.afterRounds r).isaac := by
  induction r generalizing e with
  | zero => rfl
  | succ r ih => exact ih e.isaac

theorem afterRounds_rc (e : Engine) (r : Nat) : (e.afterRounds r).rc = e.rc + BitVec.ofNat 32 r := by
  induction r with
  | zero => exact (BitVec.add_zero e.rc).symm
  | succ r ih => simp [afterRounds_succ', ih, BitVec.ofNat_add, BitVec.add_assoc]

end Engine

/-! ## The refill round in the terms of the statements -/

/-- Settles O29: the last of the 256 steps writes `rsl[255]`, and the steps together write every word of `rsl`. -/
theorem refillWritesTheWholeBuffer : Obligations.RefillWritesTheWholeBuffer := fun e =>
  ⟨e.isaac_eq_afterSteps, e.isaac_cnt, e.isaac_rsl_read_last, e.isaac_withRsl⟩

/-- Settles O30: RANDINIT leaves `rc = 1`, and every round adds 1. -/
theorem rcCountsRefillRounds : Obligations.RcCountsRefillRounds := by
  intro e seed r
  simp [Engine.afterRounds_rc, BitVec.ofNat_add, BitVec.add_comm]

/-- Settles O31, by the five parts of one step, and by which words of `mem` the first `p` steps have written. -/
theorem refillReadsSeeTheRoundsOwnWrites : Obligations.RefillReadsSeeTheRoundsOwnWrites := by
  intro e p pre post x y
  have hy : y = pre.mem.read (stepFourIndex x) + post.ra + pre.rb := pre.refillStep_mem_read_self p
  have hrb : post.rb = post.mem.read (stepFiveIndex y) + x := pre.refillStep_rb p
  have hp := p.isLt
  have hadd : (p + 128).toNat = (p.toNat + 128) % 256 := BitVec.toNat_add p 128
  refine ⟨e.afterSteps_toNat_succ p, hy, fun hself => ?_, fun hself => ?_, fun hother => ?_,
    pre.refillStep_rsl_read_self p, fun q hq => ⟨pre.refillStep_mem_of_ne hq.symm, pre.refillStep_rsl_of_ne hq.symm⟩,
    ⟨rfl, rfl, rfl⟩, fun q hq => e.afterSteps_mem_read_of_lt hq (by omega), fun q hq => e.afterSteps_mem_read_of_le hq,
    pre.refillStep_ra p, fun hlow => e.afterSteps_mem_read_of_le (by omega), fun hhigh => ?_⟩
  · rw [hy, hself]
  · rw [hrb, hself]
  · rw [hrb, pre.refillStep_mem_of_ne hother.symm]
  · have hk : (p + 128).toNat + 1 = p.toNat - 127 := by omega
    rw [← hk]
    exact e.afterSteps_mem_read_of_lt (by omega) (by omega)

end Sys2Proof.Machine
end

section
/-! PROOFS. The output buffer: which word a draw returns, which draws refill, and NEXT (spec/41_engine_refill.md R126,
R127; spec/70_reset_and_hazards.md R251). -/

namespace Sys2Proof.Machine

namespace Engine

/-! ## Draws from a full buffer (R127) -/

theorem withCnt_of_cnt_eq {e : Engine} {c : Fin 257} (h : e.cnt = c) : { e with cnt := c } = e := by
  subst h
  rfl

/-- `d + 1` draws from a full buffer: every 256 of them are followed by one refill round, and within a block the counter
goes down by one a draw. -/
theorem afterDraws_succ_of_full {e : Engine} (h : e.cnt = 256) (d : Nat) :
    e.afterDraws (d + 1) = { e.afterRounds (d / 256) with cnt := ⟨255 - d % 256, by omega⟩ } := by
  induction d with
  | zero =>
    rw [afterDraws_succ, advance_of_ne_zero (by simp [h])]
    simp [h, afterRounds]
  | succ d ih =>
    rw [afterDraws_succ', ih]
    by_cases hlast : d % 256 = 255
    · have hdiv : (d + 1) / 256 = d / 256 + 1 := by omega
      have hmod : (d + 1) % 256 = 0 := by omega
      rw [advance_of_zero (by simp [hlast]), isaac_withCnt, hdiv, afterRounds_succ']
      exact (withCnt_of_cnt_eq (by simp [hmod])).symm
    · have hdiv : (d + 1) / 256 = d / 256 := by omega
      have hcnt : 255 - d % 256 - 1 = 255 - (d + 1) % 256 := by omega
      rw [advance_of_ne_zero (by simp [Fin.ext_iff]; omega)]
      simp only [hdiv, hcnt]

/-- The refill rounds among the first `d` draws from a full buffer. -/
theorem afterDraws_rc_of_full {e : Engine} (h : e.cnt = 256) (d : Nat) :
    (e.afterDraws d).rc = e.rc + BitVec.ofNat 32 ((d - 1) / 256) := by
  cases d with
  | zero => exact (BitVec.add_zero e.rc).symm
  | succ d => rw [afterDraws_succ_of_full h, ← afterRounds_rc]; rfl

theorem nthDraw_succ_of_full {e : Engine} (h : e.cnt = 256) (d : Nat) :
    e.nthDraw (d + 1) = (e.afterRounds (d / 256)).rsl.read (BitVec.ofNat 8 (255 - d % 256)) := by
  rw [nthDraw, Nat.add_sub_cancel, draw_fst, ← afterDraws_succ', afterDraws_succ_of_full h]

end Engine

/-- Settles O34: the draws of a seeded engine are those from a full buffer. -/
theorem refillBoundary : Obligations.RefillBoundary := by
  intro e seed d hd e0
  have hfull : e0.cnt = 256 := Engine.seeded_cnt e seed
  obtain ⟨d, rfl⟩ := Nat.exists_eq_add_of_le' hd
  refine ⟨?_, fun hrefill => ?_, fun hno => ?_⟩
  · have hround : (d + 1 + 255) / 256 - 1 = d / 256 := by omega
    have hword : (256 - (d + 1) % 256) % 256 = 255 - d % 256 := by omega
    rw [hround, hword, Engine.nthDraw_succ_of_full hfull]
  · have hcount : (d + 1 - 1) / 256 = (d + 1 - 1 - 1) / 256 + 1 := by omega
    rw [Engine.afterDraws_rc_of_full hfull, Engine.afterDraws_rc_of_full hfull, hcount, BitVec.ofNat_add,
      ← BitVec.add_assoc]
    rfl
  · have hcount : (d + 1 - 1) / 256 = (d + 1 - 1 - 1) / 256 := by omega
    rw [Engine.afterDraws_rc_of_full hfull, Engine.afterDraws_rc_of_full hfull, hcount]

/-! ## NEXT (R126) -/

theorem State.finish_eq (s : State) (e : Engine) (payload : List Word) :
    s.finish e payload = { s with engine := e, resp := s.resp ++ 0x00 :: payload } := by
  simp [finish, reply]

/-- NEXT in phase `READY` takes one draw and answers its word. -/
theorem exec_next_of_ready {s : State} (hr : s.phase = .ready) :
    exec .next s = .next (s.finish s.engine.advance
      [s.engine.advance.rsl.read (BitVec.ofNat 8 s.engine.advance.cnt.val)]) := by
  simp only [exec, execNext, State.whenReady_of_ready hr, Engine.draw_fst, Engine.draw_snd]

/-- Settles O33, by the two branches of the counter update. -/
theorem nextReturnsTheNextBufferedWord : Obligations.NextReturnsTheNextBufferedWord := by
  intro s hr
  rw [exec_next_of_ready hr, State.finish_eq]
  refine ⟨fun hzero => ?_, fun c hc => ?_⟩
  · rw [Engine.advance_of_zero hzero, Engine.isaac_cnt]
    rfl
  · have hne : s.engine.cnt ≠ 0 := fun h => by simp [h] at hc
    have hcount : (⟨s.engine.cnt.val - 1, Nat.lt_of_le_of_lt (Nat.sub_le _ _) s.engine.cnt.isLt⟩ : Fin 257) = c :=
      Fin.ext (by simp [hc])
    rw [Engine.advance_of_ne_zero hne, hcount]

end Sys2Proof.Machine
end

section
/-! PROOFS. The facade's operands and BYTES: the host's coercion of a length, the values of `bits` that CONSTRUCT
refuses, and BYTES in phase `READY` (spec/43_facade_output.md R172, R174 to R177). -/

namespace Sys2Proof.Machine

/-! ## The host's coercion of a length (R174) -/

/-- The numerator and the denominator of `|n|` give its integer part. -/
theorem floor_abs_eq_natAbs_num_div_den (n : Rat) : ⌊|n|⌋ = ((n.num.natAbs / n.den : Nat) : Int) := by
  rw [Rat.floor_def', Rat.num_abs_eq_abs_num, Rat.den_abs_eq_den, Int.abs_eq_natAbs, Int.natCast_div]

/-- Settles O60: the model's quotient is `⌊|n|⌋`, as an integer and as a word. -/
theorem hostLengthIsTheTruncatedAbsoluteValue : Obligations.HostLengthIsTheTruncatedAbsoluteValue := by
  intro n
  have hbound : n.num.natAbs / n.den < 2 ^ 32 ↔ ((n.num.natAbs / n.den : Nat) : Int) < 2 ^ 32 := by omega
  simp only [hostLength, floor_abs_eq_natAbs_num_div_den, BitVec.ofInt_natCast, hbound]

/-! ## The refusal of `bits` (R172) -/

/-- Once `bits` has passed its check, no answer of the provider makes CONSTRUCT answer `InvalidOption` (R171). -/
theorem State.constructed_resp_ne_invalidOption (s : State) (bits : Int) (answer : Provided × EntropyPort) :
    (s.constructed bits answer).resp ≠ s.resp ++ [0x01] := by
  have hword (st : Status) (hne : st ≠ .invalidOption) : s.resp ++ [st.word] ≠ s.resp ++ [0x01] :=
    fun h => hne (Status.word_injective st .invalidOption (List.singleton_inj.mp (List.append_cancel_left h)))
  obtain ⟨answer, q⟩ := answer
  cases answer with
  | noSource => exact hword .noEntropySource (by decide)
  | readError => exact hword .entropyReadError (by decide)
  | words ws => exact hword .ok (by decide)

/-- Settles O48, by the two branches of the check of `bits`. -/
theorem validBitsAreTheEightPowersOfTwo : Obligations.ValidBitsAreTheEightPowersOfTwo := by
  refine ⟨validBits_iff_mem_legalBits, fun s t bits nonblocking h => ?_⟩
  rw [← validBits_iff_mem_legalBits]
  cases hv : validBits (bitsOperand bits) with
  | false =>
    obtain rfl := Host.Outcome.next.inj (h.symm.trans (exec_construct_of_invalid nonblocking s hv))
    exact iff_of_true rfl Bool.false_ne_true
  | true =>
    obtain rfl := Host.Outcome.next.inj (h.symm.trans (exec_construct_of_valid nonblocking s hv))
    exact iff_of_false (s.constructed_resp_ne_invalidOption _ _) (not_not_intro rfl)

/-! ## BYTES (R175 to R177) -/

/-- BYTES in phase `READY` answers the packed byte string and takes its draws. -/
theorem exec_bytes_of_ready {s : State} (hr : s.phase = .ready) (n : Word) :
    exec (.bytes n) s = .next (s.finish (s.engine.afterDraws (byteDraws s.tailMode n.toNat))
      (packBytes (s.engine.byteString s.tailMode n.toNat))) := by
  simp only [exec, execBytes, State.whenReady_of_ready hr, Engine.emitBytes_eq]

/-- Settles O36, by EMIT_BYTES in the terms of the statement. -/
theorem bytesReturnsTheByteString : Obligations.BytesReturnsTheByteString := by
  intro s n hr
  refine ⟨s.engine.byteString_length s.tailMode n.toNat, ?_⟩
  rw [exec_bytes_of_ready hr, State.finish_eq]

end Sys2Proof.Machine
end

section
/-! PROOFS. The divisor, the reduction modulo it, and what RANGED and STRFROM answer from the accepted draws
(spec/44_ranged_sampling.md R190 to R198; spec/60_exceptions.md R211, R212). -/

namespace Sys2Proof.Machine

/-! ## The divisor (R190, R191) -/

/-- The loop of DIVISOR from a power of two whose half is below the range ends at the least power of two at or above the
range: it doubles exactly while the power is below the range. -/
theorem divisorLoop_eq_two_pow {range turns n : Nat} (hturns : turns + n = 32) (hmax : range ≤ 2 ^ 32)
    (hhalf : 2 ^ n / 2 < range) :
    ∃ k, k ≤ 32 ∧ divisorLoop range turns (n + 1) (2 ^ n) = 2 ^ k ∧ range ≤ 2 ^ k ∧ 2 ^ k / 2 < range := by
  induction turns generalizing n with
  | zero =>
    obtain rfl : n = 32 := by omega
    exact ⟨32, le_rfl, rfl, hmax, hhalf⟩
  | succ turns ih =>
    obtain hlt | hge := Nat.lt_or_ge (2 ^ n) range
    · rw [divisorLoop, if_pos ⟨by omega, hlt⟩]
      exact ih (by omega) (by rwa [pow_succ, Nat.mul_div_cancel _ two_pos])
    · rw [divisorLoop, if_neg fun h => Nat.not_lt.mpr hge h.2]
      exact ⟨n, by omega, rfl, hge, hhalf⟩

theorem divisor_eq_two_pow {range : Nat} (h1 : 1 ≤ range) (h2 : range ≤ 2 ^ 32) :
    ∃ k, k ≤ 32 ∧ divisor range = 2 ^ k ∧ range ≤ 2 ^ k ∧ 2 ^ k / 2 < range := by
  rw [divisor, divisorLoop, if_pos ⟨Nat.zero_le 32, h1⟩]
  exact divisorLoop_eq_two_pow rfl h2 h1

/-- A power of two is its own divisor. -/
theorem divisor_two_pow {k : Nat} (hk : k ≤ 32) : divisor (2 ^ k) = 2 ^ k := by
  obtain ⟨j, -, hj, hle, hhalf⟩ := divisor_eq_two_pow Nat.one_le_two_pow (Nat.pow_le_pow_right two_pos hk)
  have hlt : 2 ^ j < 2 ^ (k + 1) := by rw [pow_succ]; omega
  have hjk : j ≤ k := Nat.le_of_lt_succ ((Nat.pow_lt_pow_iff_right one_lt_two).mp hlt)
  have hkj : k ≤ j := (Nat.pow_le_pow_iff_right one_lt_two).mp hle
  rw [hj, Nat.le_antisymm hjk hkj]

/-- Settles O39, by the invariant of the loop that the half of the power is below the range. -/
theorem divisorIsTheLeastPowerOfTwo : Obligations.DivisorIsTheLeastPowerOfTwo := by
  intro range h1 h2
  obtain ⟨k, hk, hd, hle, hhalf⟩ := divisor_eq_two_pow h1 h2
  rw [hd]
  exact ⟨⟨k, hk, rfl⟩, hle, hhalf⟩

/-! ## The reduction modulo the divisor (R192) -/

theorem toNat_ofNat_of_lt {w r : Nat} (h : r < 2 ^ w) : (BitVec.ofNat w r).toNat = r := by
  rw [BitVec.toNat_ofNat, Nat.mod_eq_of_lt h]

theorem toNat_mod_two_pow (v : Word) {k : Nat} (hk : k ≤ 32) :
    v.toNat % 2 ^ k = (v &&& BitVec.ofNat 32 (2 ^ k - 1)).toNat := by
  have hmask : 2 ^ k - 1 < 2 ^ 32 :=
    lt_of_lt_of_le (Nat.sub_lt (Nat.two_pow_pos k) one_pos) (Nat.pow_le_pow_right two_pos hk)
  rw [BitVec.toNat_and, toNat_ofNat_of_lt hmask, Nat.and_two_pow_sub_one_eq_mod]

/-- Settles O40: the divisor is a power of two, and those of `2^32` and 1 are the ranges themselves. -/
theorem reductionKeepsTheLowBits : Obligations.ReductionKeepsTheLowBits := by
  intro v range h1 h2
  obtain ⟨k, hk, hd, -, -⟩ := divisor_eq_two_pow h1 h2
  have hone : divisor 1 = 1 := divisor_two_pow (k := 0) (Nat.zero_le 32)
  rw [hd, divisor_two_pow le_rfl, hone]
  exact ⟨toNat_mod_two_pow v hk, Nat.mod_eq_of_lt v.isLt, Nat.mod_one _⟩

/-! ## Sampling up to an accepted draw (R193, R195) -/

namespace Engine

theorem accepted_succ_of_lt {e : Engine} {range d : Nat} (h : (e.nthDraw (d + 1)).toNat % divisor range < range) :
    e.accepted range (d + 1) = e.accepted range d ++ [(e.nthDraw (d + 1)).toNat % divisor range] := by
  have hdraw : (e.afterDraws d).nthDraw 1 = e.nthDraw (d + 1) := nthDraw_afterDraws e d 1 le_rfl
  rw [accepted_add, accepted_one (by rwa [hdraw]), hdraw]

/-- One sampled value is that of the first accepted draw. -/
theorem accepted_first_of_sample_eq_some {e e' : Engine} {range r : Nat}
    (h : e.sample range (divisor range) = some (r, e')) :
    ∃ k, e.accepted range k = [] ∧ e.accepted range (k + 1) = [r] ∧ e' = e.afterDraws (k + 1) := by
  obtain ⟨k, -, hrej, rfl, hacc, rfl⟩ := sampleWithin_some h
  have hnil : e.accepted range k = [] := accepted_eq_nil fun j hj => hrej (j + 1) (by omega) hj
  exact ⟨k, hnil, by rw [accepted_succ_of_lt hacc, hnil, List.nil_append], rfl⟩

/-- No draw was taken, or the last of `d` draws was accepted: where a sampling of as many values ends. -/
def EndsAccepted (e : Engine) (range d : Nat) : Prop :=
  d = 0 ∨ (e.nthDraw d).toNat % divisor range < range

theorem EndsAccepted.eq_zero {e : Engine} {range d : Nat} (h : e.EndsAccepted range d)
    (hnil : e.accepted range d = []) : d = 0 := by
  cases d with
  | zero => rfl
  | succ d =>
    rw [accepted_succ_of_lt (h.resolve_left (Nat.succ_ne_zero d))] at hnil
    exact absurd hnil (List.append_ne_nil_of_right_ne_nil _ (List.cons_ne_nil _ _))

theorem EndsAccepted.afterDraws {e : Engine} {range c d : Nat} (h : e.EndsAccepted range (c + d)) :
    (e.afterDraws c).EndsAccepted range d := by
  obtain rfl | hd := Nat.eq_zero_or_pos d
  · exact .inl rfl
  · refine .inr ?_
    rw [nthDraw_afterDraws e c d hd]
    exact h.resolve_left (by omega)

/-- Sampling as many values as `d` draws have accepted ones, the last draw among them, gives these values and takes
these draws. -/
theorem rangedRandoms_of_endsAccepted {e : Engine} {range count d : Nat} (hd : e.EndsAccepted range d)
    (hlen : (e.accepted range d).length = count) :
    e.rangedRandoms range count = some (e.accepted range d, e.afterDraws d) := by
  rw [rangedRandoms]
  induction count generalizing e d with
  | zero =>
    obtain rfl := hd.eq_zero (List.eq_nil_of_length_eq_zero hlen)
    rfl
  | succ count ih =>
    cases hsample : e.sample range (divisor range) with
    | none =>
      rw [accepted_eq_nil fun j _ => rejects_all_of_sample_eq_none hsample j] at hlen
      cases hlen
    | some p =>
      obtain ⟨r, e'⟩ := p
      obtain ⟨k, hnil, hone, rfl⟩ := accepted_first_of_sample_eq_some hsample
      have hkd : k < d := by
        by_contra hge
        have hle := accepted_length_mono e range (Nat.le_of_not_lt hge)
        rw [hlen, hnil] at hle
        exact Nat.not_succ_le_zero count hle
      obtain ⟨c, rfl⟩ : ∃ c, d = k + 1 + c := Nat.exists_eq_add_of_le hkd
      have hacc : e.accepted range (k + 1 + c) = r :: (e.afterDraws (k + 1)).accepted range c := by
        rw [accepted_add, hone, List.singleton_append]
      have hrest : ((e.afterDraws (k + 1)).accepted range c).length = count := by simpa [hacc] using hlen
      rw [samples_succ, hsample, Option.bind_some, ih hd.afterDraws hrest, Option.map_some, hacc,
        afterDraws_add e (k + 1) c]

end Engine

/-! ## RANGED and STRFROM with enough accepted draws -/

/-- Settles O41, by sampling up to the accepted draw `d`. -/
theorem rangedReturnsTheAcceptedDraws : Obligations.RangedReturnsTheAcceptedDraws := by
  intro s range count d hr h1 h2 hlen hd
  rw [exec_ranged_of_domain hr h1 h2, Engine.rangedRandoms_of_endsAccepted hd hlen, Option.elim_some, State.finish_eq]

/-- Settles O42, by sampling up to the accepted draw `d`. -/
theorem strfromReturnsTheSampledOctets : Obligations.StrfromReturnsTheSampledOctets := by
  intro s bag n d hr hbag _ hlen hd
  rw [exec_strfrom_of_ne_nil hr hbag, Engine.rangedRandoms_of_endsAccepted hd hlen, Option.elim_some, State.finish_eq]
  rfl

/-! ## Power-of-two ranges -/

/-- A power-of-two range accepts every draw: its divisor is the range, so the reduction is below it. -/
theorem mod_divisor_two_pow_lt (v : Word) {k : Nat} (hk : k ≤ 32) : v.toNat % divisor (2 ^ k) < 2 ^ k := by
  rw [divisor_two_pow hk]
  exact Nat.mod_lt _ (Nat.two_pow_pos k)

/-- The values of a power-of-two range are the low bits of the draws, one a draw. -/
theorem Engine.accepted_two_pow (e : Engine) {k : Nat} (hk : k ≤ 32) (d : Nat) :
    e.accepted (2 ^ k) d = (List.range d).map fun j => (e.nthDraw (j + 1) &&& BitVec.ofNat 32 (2 ^ k - 1)).toNat := by
  have hall : ∀ r ∈ (List.range d).map fun j => (e.nthDraw (j + 1)).toNat % divisor (2 ^ k),
      decide (r < 2 ^ k) = true :=
    List.forall_mem_map.mpr fun j _ => decide_eq_true (mod_divisor_two_pow_lt _ hk)
  rw [accepted, List.filter_eq_self.mpr hall, divisor_two_pow hk]
  simp only [toNat_mod_two_pow _ hk]

/-- Settles O43: every draw is accepted, so the draws taken are as many as the values. -/
theorem powerOfTwoRangesNeverReject : Obligations.PowerOfTwoRangesNeverReject := by
  refine ⟨fun s k count hr hk => ?_, fun s k bag n hr hk hlen => ?_⟩
  · have hrange : (BitVec.ofNat 64 (2 ^ k)).toNat = 2 ^ k :=
      toNat_ofNat_of_lt (Nat.pow_lt_pow_right one_lt_two (by omega))
    have h := rangedReturnsTheAcceptedDraws s (BitVec.ofNat 64 (2 ^ k)) count count.toNat hr
    rw [hrange, s.engine.accepted_two_pow hk, List.map_map] at h
    simp only [Function.comp_def, BitVec.ofNat_toNat, BitVec.setWidth_eq] at h
    exact h Nat.one_le_two_pow (Nat.pow_le_pow_right two_pos hk) (by rw [List.length_map, List.length_range])
      (.inr (mod_divisor_two_pow_lt _ hk))
  · have h := strfromReturnsTheSampledOctets s bag n n.toNat hr
    rw [hlen, s.engine.accepted_two_pow hk.le, List.map_map] at h
    have hbag : bag ≠ [] := List.ne_nil_of_length_pos (hlen ▸ Nat.two_pow_pos k)
    exact h hbag (Nat.pow_lt_pow_right one_lt_two hk) (by rw [List.length_map, List.length_range])
      (.inr (mod_divisor_two_pow_lt _ hk.le))

/-! ## What RANGED and STRFROM answer with `OK` -/

/-- A command that answers `OK` has not raised an error. -/
theorem exec_ne_raise_of_ok {i : Instr} {s t : State} {payload : List Word} (h : exec i s = .next t)
    (hok : t.resp = s.resp ++ 0x00 :: payload) {st : Status} (hst : st ≠ .ok) : exec i s ≠ .next (s.raise st) := by
  intro hraise
  obtain rfl := Host.Outcome.next.inj (h.symm.trans hraise)
  exact hst ((Status.word_eq_zero_iff st).mp (List.cons.inj (List.append_cancel_left hok)).1)

theorem exec_drawing_ready_of_ok {i : Instr} {s t : State} {payload : List Word} (hi : isDrawing i = true)
    (h : exec i s = .next t) (hok : t.resp = s.resp ++ 0x00 :: payload) : s.phase = .ready := by
  cases hp : s.phase with
  | ready => rfl
  | unseeded => exact absurd (exec_drawing_of_unseeded hi hp) (exec_ne_raise_of_ok h hok (by decide))

/-- The payload of a command that finished is the one its response shows. -/
theorem State.finish_payload {s : State} {e : Engine} {sent payload : List Word}
    (hok : (s.finish e sent).resp = s.resp ++ 0x00 :: payload) : payload = sent :=
  (List.cons.inj (List.append_cancel_left hok)).2.symm

/-- A RANGED that answers `OK` has a range of the domain and answers sampled values. -/
theorem exec_ranged_ok {s t : State} {range : BitVec 64} {count : Word} {payload : List Word}
    (h : exec (.ranged range count) s = .next t) (hok : t.resp = s.resp ++ 0x00 :: payload) :
    s.phase = .ready ∧ 1 ≤ range.toNat ∧ range.toNat ≤ 2 ^ 32 ∧
      ∃ rs e, s.engine.rangedRandoms range.toNat count.toNat = some (rs, e) ∧
        payload = rs.map (BitVec.ofNat 32) ∧ t = s.finish e payload := by
  have hr : s.phase = .ready := exec_drawing_ready_of_ok rfl h hok
  obtain hzero | h1 := Nat.eq_zero_or_pos range.toNat
  · exact absurd (exec_ranged_of_zero hr hzero count) (exec_ne_raise_of_ok h hok (by decide))
  obtain h2 | hmax := le_or_gt range.toNat (2 ^ 32)
  · rw [exec_ranged_of_domain hr h1 h2] at h
    cases hloop : s.engine.rangedRandoms range.toNat count.toNat with
    | none => rw [hloop] at h; cases h
    | some p =>
      rw [hloop] at h
      obtain rfl := Host.Outcome.next.inj h
      obtain rfl := State.finish_payload hok
      exact ⟨hr, h1, h2, p.1, p.2, rfl, rfl, rfl⟩
  · exact absurd (exec_ranged_of_gt hr hmax count) (exec_ne_raise_of_ok h hok (by decide))

/-- A STRFROM that answers `OK` answers the octets of the bag at sampled values. -/
theorem exec_strfrom_ok {s t : State} {bag : List Byte} {n : Word} {payload : List Word}
    (h : exec (.strfrom bag n) s = .next t) (hok : t.resp = s.resp ++ 0x00 :: payload) :
    ∃ rs e, s.engine.rangedRandoms bag.length n.toNat = some (rs, e) ∧
      payload = packBytes (rs.map (bagOctet bag)) := by
  have hr : s.phase = .ready := exec_drawing_ready_of_ok rfl h hok
  obtain rfl | hbag := eq_or_ne bag []
  · exact absurd (exec_strfrom_nil hr n) (exec_ne_raise_of_ok h hok (by decide))
  rw [exec_strfrom_of_ne_nil hr hbag] at h
  cases hloop : s.engine.rangedRandoms bag.length n.toNat with
  | none => rw [hloop] at h; cases h
  | some p =>
    rw [hloop] at h
    obtain rfl := Host.Outcome.next.inj h
    exact ⟨p.1, p.2, rfl, State.finish_payload hok⟩

/-- Settles O45: the payload holds the sampled values. -/
theorem rangedValuesAreBelowTheRange : Obligations.RangedValuesAreBelowTheRange := by
  intro s t range count payload h hok
  obtain ⟨-, -, h2, rs, e, hloop, rfl, -⟩ := exec_ranged_ok h hok
  obtain ⟨hlen, hlt, -⟩ := Engine.samples_draws hloop
  refine ⟨by rw [List.length_map, hlen], List.forall_mem_map.mpr fun r hr => ?_⟩
  rw [toNat_ofNat_of_lt ((hlt r hr).trans_le h2)]
  exact hlt r hr

theorem bagOctet_mem {bag : List Byte} {r : Nat} (h : r < bag.length) : bagOctet bag r ∈ bag := by
  rw [bagOctet, List.getD_eq_getElem _ _ h]
  exact List.getElem_mem h

/-- Settles O46: a sampled value is an index of the bag. -/
theorem strfromOctetsAreOfTheBag : Obligations.StrfromOctetsAreOfTheBag := by
  intro s t bag n payload h hok
  obtain ⟨rs, e, hloop, rfl⟩ := exec_strfrom_ok h hok
  obtain ⟨hlen, hlt, -⟩ := Engine.samples_draws hloop
  exact ⟨rs.map (bagOctet bag), by rw [List.length_map, hlen],
    List.forall_mem_map.mpr fun r hr => bagOctet_mem (hlt r hr), rfl⟩

/-- Settles O47: both commands sample the same values, and each value is the number of its RANGED word. -/
theorem strfromMapsTheValuesOfRanged : Obligations.StrfromMapsTheValuesOfRanged := by
  intro s t bag n values hbag h hok
  obtain ⟨hr, h1, h2, rs, e, hloop, rfl, rfl⟩ := exec_ranged_ok h hok
  have hrange : (BitVec.ofNat 64 bag.length).toNat = bag.length :=
    toNat_ofNat_of_lt (hbag.trans (by decide))
  rw [hrange] at h1 h2 hloop
  obtain ⟨-, hlt, -⟩ := Engine.samples_draws hloop
  have hoctets : (rs.map (BitVec.ofNat 32)).map (fun v => bag.getD v.toNat 0) = rs.map (bagOctet bag) := by
    rw [List.map_map]
    exact List.map_congr_left fun r hr => by
      rw [Function.comp_apply, toNat_ofNat_of_lt ((hlt r hr).trans_le h2), bagOctet]
  rw [exec_strfrom_of_ne_nil hr (List.ne_nil_of_length_pos h1), hloop, Option.elim_some, hoctets]
  simp only [State.finish_eq]

/-! ## The operand errors (R193, R196) -/

/-- Settles O14, by the checks of RANGED and STRFROM before the first draw. -/
theorem samplingOperandErrors : Obligations.SamplingOperandErrors :=
  fun _ hr => ⟨exec_ranged_of_zero hr rfl, fun _ count hmax => exec_ranged_of_gt hr hmax count, exec_strfrom_nil hr⟩

end Sys2Proof.Machine
end

section
/-! PROOFS. Errors: what a command that fails leaves unchanged, the priority of `NotSeeded`, and the commands that
cannot fail in phase `READY` (spec/60_exceptions.md R213, R215, R217). -/

namespace Sys2Proof.Machine

/-! ## Reading a response -/

/-- Two readings of what was appended to the response port agree in the status and in the payload (R74, R75). -/
theorem Status.eq_of_append_word_eq {before p q : List Word} {st st' : Status}
    (h : before ++ st.word :: p = before ++ st'.word :: q) : st = st' ∧ p = q := by
  obtain ⟨hword, hpayload⟩ := List.cons.inj (List.append_cancel_left h)
  exact ⟨Status.word_injective st st' hword, hpayload⟩

/-! ## Errors leave the block unchanged (R215) -/

/-- The command answered `OK`. -/
def State.AnswersOk (s t : State) : Prop :=
  ∃ payload : List Word, t.resp = s.resp ++ Status.ok.word :: payload

/-- The command answered an error without a payload, left the block state, and holds no further handle. -/
def State.FailsCleanly (s t : State) : Prop :=
  ∃ st : Status, t.resp = s.resp ++ [st.word] ∧ s.sameBlock t ∧ t.entropy.heldHandles = s.entropy.heldHandles

theorem State.AnswersOk.status_eq {s t : State} (h : s.AnswersOk t) {st : Status} {payload : List Word}
    (hresp : t.resp = s.resp ++ st.word :: payload) : st = .ok := by
  obtain ⟨sent, hsent⟩ := h
  exact (Status.eq_of_append_word_eq (hresp.symm.trans hsent)).1

theorem State.finish_answersOk (s : State) (e : Engine) (payload : List Word) : s.AnswersOk (s.finish e payload) :=
  ⟨payload, s.finish_resp e payload⟩

theorem State.raise_failsCleanly {s : State} {q : EntropyPort} (hq : q.heldHandles = s.entropy.heldHandles)
    (st : Status) : s.FailsCleanly (({ s with entropy := q } : State).raise st) :=
  ⟨st, rfl, ⟨rfl, rfl, rfl⟩, hq⟩

/-- Every command that completes answers `OK` or fails without a trace in the block. -/
theorem exec_answersOk_or_failsCleanly {i : Instr} {s t : State} (h : exec i s = .next t) :
    s.AnswersOk t ∨ s.FailsCleanly t := by
  cases hi : isDrawing i with
  | true =>
    obtain ⟨st, -, rfl⟩ | ⟨-, d, payload, rfl⟩ := exec_drawing_cases hi h
    · exact .inr (State.raise_failsCleanly rfl st)
    · exact .inl (s.finish_answersOk _ payload)
  | false =>
    obtain ⟨words, rfl⟩ | ⟨bits, nonblocking, rfl⟩ := seed_or_construct_of_not_isDrawing hi
    · obtain ⟨-, he⟩ | ⟨-, he⟩ := execSeed_cases words s <;>
        obtain rfl := Host.Outcome.next.inj (h.symm.trans he)
      · exact .inr (State.raise_failsCleanly rfl .invalidSeed)
      · exact .inl ⟨[], rfl⟩
    · obtain ⟨q, hq, ⟨st, -, rfl⟩ | ⟨-, words, rfl⟩⟩ := exec_construct_cases h
      · exact .inr (State.raise_failsCleanly hq st)
      · exact .inl ⟨[], rfl⟩

/-- Every step that is not idle answers `OK` or fails without a trace in the block. -/
theorem step_answersOk_or_failsCleanly {s t : State} (h : step s = .next t) :
    t = s ∨ s.AnswersOk t ∨ s.FailsCleanly t := by
  obtain ⟨i, rest, -, he⟩ | rfl | rfl := step_cases h
  · exact .inr (exec_answersOk_or_failsCleanly (s := { s with cmd := rest }) he)
  · exact .inl rfl
  · exact .inr (.inr ⟨.illegalCommand, rfl, ⟨rfl, rfl, rfl⟩, rfl⟩)

/-- Settles O11: a step that answers an error neither idled nor answered `OK`. -/
theorem errorLeavesTheBlockUnchanged : Obligations.ErrorLeavesTheBlockUnchanged := by
  intro s t st payload h hresp hst
  obtain rfl | hok | ⟨_, hfail, hblock, hheld⟩ := step_answersOk_or_failsCleanly h
  · exact absurd (List.self_eq_append_right.mp hresp) (List.cons_ne_nil _ _)
  · exact absurd (hok.status_eq hresp) hst
  · exact ⟨(Status.eq_of_append_word_eq (hresp.symm.trans hfail)).2, hblock, hheld⟩

/-! ## The priority of `NotSeeded` (R213) -/

/-- The statuses SEED and CONSTRUCT answer (R106, R171, R211). -/
def seedingStatuses : List Status :=
  [.ok, .invalidOption, .noEntropySource, .entropyReadError, .invalidSeed]

theorem State.constructed_status (s : State) (bits : Int) (answer : Provided × EntropyPort) :
    ∃ st ∈ seedingStatuses, (s.constructed bits answer).resp = s.resp ++ [st.word] := by
  obtain ⟨answer, q⟩ := answer
  cases answer with
  | noSource => exact ⟨.noEntropySource, by decide, rfl⟩
  | readError => exact ⟨.entropyReadError, by decide, rfl⟩
  | words ws => exact ⟨.ok, by decide, rfl⟩

theorem exec_seeding_status {i : Instr} {s t : State} (hi : isDrawing i = false) (h : exec i s = .next t) :
    ∃ st ∈ seedingStatuses, t.resp = s.resp ++ [st.word] := by
  obtain ⟨words, rfl⟩ | ⟨bits, nonblocking, rfl⟩ := seed_or_construct_of_not_isDrawing hi
  · obtain ⟨-, he⟩ | ⟨-, he⟩ := execSeed_cases words s <;>
      obtain rfl := Host.Outcome.next.inj (h.symm.trans he)
    · exact ⟨.invalidSeed, by decide, rfl⟩
    · exact ⟨.ok, by decide, rfl⟩
  · obtain ⟨-, he⟩ | ⟨-, answer, q, -, he⟩ := execConstruct_cases bits nonblocking s <;>
      obtain rfl := Host.Outcome.next.inj (h.symm.trans he)
    · exact ⟨.invalidOption, by decide, rfl⟩
    · exact s.constructed_status _ _

/-- Settles O12: drawing commands begin with the readiness check, and `NotSeeded` is no status of the others. -/
theorem notSeededIsCheckedFirst : Obligations.NotSeededIsCheckedFirst := by
  refine ⟨fun i s hi hu => exec_drawing_of_unseeded hi hu, fun i s t hi h hresp => ?_⟩
  obtain ⟨st, hmem, hst⟩ := exec_seeding_status hi h
  obtain rfl : st = .notSeeded := (Status.eq_of_append_word_eq (st' := .notSeeded) (hst.symm.trans hresp)).1
  exact absurd hmem (by decide)

/-! ## Phase `READY` (R217) -/

/-- Past the operand checks a sampling command can only answer `OK`. -/
theorem answersOk_of_sampled {s t : State} {sampled : Option (List Nat × Engine)} {payload : List Nat → List Word}
    (h : sampled.elim (.fault .rejectionNeverEnds) (fun p => .next (s.finish p.2 (payload p.1))) =
      (.next t : Host.Outcome State Fault Refusal)) : s.AnswersOk t := by
  cases sampled with
  | none => cases h
  | some p =>
    obtain rfl := Host.Outcome.next.inj h
    exact s.finish_answersOk p.2 (payload p.1)

theorem exec_ranged_answersOk {s t : State} (hr : s.phase = .ready) {range : BitVec 64} {count : Word}
    (h1 : 1 ≤ range.toNat) (h2 : range.toNat ≤ 2 ^ 32) (h : exec (.ranged range count) s = .next t) :
    s.AnswersOk t :=
  answersOk_of_sampled (payload := List.map (BitVec.ofNat 32)) ((exec_ranged_of_domain hr h1 h2 count).symm.trans h)

theorem exec_strfrom_answersOk {s t : State} (hr : s.phase = .ready) {bag : List Byte} {n : Word} (hbag : bag ≠ [])
    (h : exec (.strfrom bag n) s = .next t) : s.AnswersOk t :=
  answersOk_of_sampled (payload := fun rs => packBytes (rs.map (bagOctet bag)))
    ((exec_strfrom_of_ne_nil hr hbag n).symm.trans h)

/-- Settles O13: NEXT, BYTES and HEX finish, and RANGED and STRFROM with legal operands answer `OK`. -/
theorem engineCannotFailOnceReady : Obligations.EngineCannotFailOnceReady := by
  refine fun s hr => ⟨?_, fun range count t st payload h hresp hst => ?_, fun bag n t st payload h hresp hst => ?_⟩
  · rintro i (rfl | ⟨n, rfl⟩ | ⟨n, rfl⟩)
    · exact ⟨_, _, exec_next_of_ready hr, s.finish_resp _ _⟩
    · exact ⟨_, _, (bytesReturnsTheByteString s n hr).2, rfl⟩
    · exact ⟨_, _, (hexReturnsTheByteStringAsText s n hr).2, rfl⟩
  · by_contra hlegal
    exact hst ((exec_ranged_answersOk hr (by omega) (by omega) h).status_eq hresp)
  · by_contra hbag
    exact hst ((exec_strfrom_answersOk hr hbag h).status_eq hresp)

end Sys2Proof.Machine
end

section
/-! PROOFS. The phase: a command that changes it is a SEED or CONSTRUCT that answers `OK`, and every such command leaves
`READY` (spec/10_state.md R26; spec/60_exceptions.md R215; R241). -/

namespace Sys2Proof.Machine

theorem Phase.eq_unseeded_of_ne_ready {p : Phase} (h : p ≠ .ready) : p = .unseeded := by
  cases p with
  | unseeded => rfl
  | ready => exact absurd rfl h

/-- SEED and CONSTRUCT answer an error and leave the phase, or answer `OK` and leave the block `READY` (R26, R215). -/
theorem exec_seeding_phase {i : Instr} {s t : State} (hi : isDrawing i = false) (h : exec i s = .next t) :
    (t.phase = s.phase ∧ t.resp ≠ s.resp ++ [0x00]) ∨ (t.phase = .ready ∧ t.resp = s.resp ++ [0x00]) := by
  obtain ⟨words, rfl⟩ | ⟨bits, nonblocking, rfl⟩ := seed_or_construct_of_not_isDrawing hi
  · obtain ⟨-, he⟩ | ⟨-, he⟩ := execSeed_cases words s <;>
      obtain rfl := Host.Outcome.next.inj (h.symm.trans he)
    · exact .inl ⟨rfl, State.raise_resp_ne_ok (by decide)⟩
    · exact .inr ⟨rfl, rfl⟩
  · obtain ⟨q, -, ⟨st, hst, rfl⟩ | ⟨-, words, rfl⟩⟩ := exec_construct_cases h
    · exact .inl ⟨rfl, State.raise_resp_ne_ok (s := { s with entropy := q }) hst⟩
    · exact .inr ⟨rfl, rfl⟩

/-- A command that changes the phase seeds the block. -/
theorem exec_seeds_of_phase_ne {i : Instr} {s t : State} (h : exec i s = .next t) (hne : t.phase ≠ s.phase) :
    isDrawing i = false ∧ t.phase = .ready ∧ t.resp = s.resp ++ [0x00] := by
  cases hi : isDrawing i with
  | true =>
    obtain ⟨hsame, -⟩ := drawingFrame i s t hi h
    exact absurd hsame hne
  | false =>
    obtain ⟨hsame, -⟩ | ⟨hready, hok⟩ := exec_seeding_phase hi h
    · exact absurd hsame hne
    · exact ⟨rfl, hready, hok⟩

/-- Settles O17: only an executed SEED or CONSTRUCT changes the phase, and one that answers `OK` leaves `READY`. -/
theorem phaseChangesOnlyBySuccessfulSeeding : Obligations.PhaseChangesOnlyBySuccessfulSeeding := by
  refine ⟨fun s t h hne => ?_, fun i s t hi h hok => ?_⟩
  · obtain ⟨i, rest, hd, he⟩ | rfl | rfl := step_cases h
    · obtain ⟨hi, hready, hok⟩ := exec_seeds_of_phase_ne (s := { s with cmd := rest }) he hne
      have hunseeded : s.phase = .unseeded := Phase.eq_unseeded_of_ne_ready (hready ▸ hne.symm)
      exact ⟨hunseeded, hready, hok, i, rest, hd, hi⟩
    · exact absurd rfl hne
    · exact absurd rfl hne
  · obtain ⟨-, hne⟩ | ⟨hready, -⟩ := exec_seeding_phase hi h
    · exact absurd hok hne
    · exact hready

end Sys2Proof.Machine
end

section
/-! PROOFS. The decoder on the spec's example words (spec/30_encoding.md section 4, R72, R76 to R81). -/

namespace Sys2Proof.Machine

/-- The words that encode a well-formed command decode to it, with no word left over. -/
theorem decode_of_encode_eq {i : Instr} {ws : List Word} (hi : wellFormed i = true) (h : encode i = ws) :
    decode ws = .ok (i, []) := by
  simpa [h] using decode_encode_append hi []

/-- Settles O8: each example is the encoding of its command, and decoding undoes encoding. -/
theorem exampleWordsDecode : Obligations.ExampleWordsDecode := by
  refine ⟨?next, ?seedEmpty, ?seed, ?bytes, ?hex, ?strfrom, ?ranged, ?constructBits, ?constructBoth⟩ <;>
    exact decode_of_encode_eq (by decide) (by decide)

end Sys2Proof.Machine
end

section
/-! PROOFS. The reads of the entropy provider: a read that succeeds gives exactly the bytes asked for, and what a device
read makes of the parts the platform lists (spec/42_entropy_provider.md sections 2 and 3, R150 to R153, R157). -/

namespace Sys2Proof.Machine

/-! ## The length of a read (R150) -/

theorem fileLoop_length {turns need : Nat} {q : EntropyPort} {bytes : List Byte} (hturns : need ≤ turns)
    (h : (fileLoop turns need q).1 = some bytes) : bytes.length = need := by
  induction turns generalizing need q bytes with
  | zero =>
    obtain rfl := Option.some.inj h
    exact (Nat.le_zero.mp hturns).symm
  | succ turns ih =>
    rw [fileLoop] at h
    split at h
    · next hzero =>
      obtain rfl := Option.some.inj h
      exact hzero.symm
    · dsimp only at h
      split at h
      · cases h
      · next hpart =>
        obtain ⟨rest, hrest, rfl⟩ := Option.map_eq_some_iff.mp h
        have hpos := List.length_pos_iff.mpr hpart
        have hle := replyAtMost_length need q.take.1
        rw [List.length_append, ih (by omega) hrest]
        omega

theorem egdLoop_length {turns need : Nat} {q : EntropyPort} {bytes : List Byte} (hturns : need ≤ turns)
    (h : (egdLoop turns need q).1 = some bytes) : bytes.length = need := by
  induction turns generalizing need q bytes with
  | zero =>
    obtain rfl := Option.some.inj h
    exact (Nat.le_zero.mp hturns).symm
  | succ turns ih =>
    rw [egdLoop] at h
    split at h
    · next hzero =>
      obtain rfl := Option.some.inj h
      exact hzero.symm
    · next hneed =>
      dsimp only at h
      split at h
      · cases h
      · next chunk hchunk =>
        obtain ⟨rest, hrest, rfl⟩ := Option.map_eq_some_iff.mp h
        have hshorter : need - min egdChunkMax need ≤ turns := by rw [egdChunkMax]; omega
        rw [List.length_append, replyExactly_length hchunk, ih hshorter hrest]
        omega

/-- A device read that succeeds has opened the device, run its loop and closed the device. -/
theorem readFile_eq_some {path : String} {n : Nat} {q q' : EntropyPort} {bytes : List Byte}
    (h : readFile path n q = (some bytes, q')) :
    ∃ q1, fileLoop n n (q.take.2.note (.openFile path true)) = (some bytes, q1) ∧ q' = q1.note (.closeFile path) := by
  unfold readFile at h
  split at h <;> rename_i htake
  · cases h
  · obtain ⟨hbytes, hq⟩ := Prod.mk.inj h
    rw [htake]
    exact ⟨_, Prod.ext hbytes rfl, hq.symm⟩

theorem readFile_length {path : String} {n : Nat} {q q' : EntropyPort} {bytes : List Byte}
    (h : readFile path n q = (some bytes, q')) : bytes.length = n := by
  obtain ⟨q1, hloop, -⟩ := readFile_eq_some h
  exact fileLoop_length le_rfl (congrArg Prod.fst hloop)

theorem readEgd_length {path : EgdPath} {n : Nat} {q q' : EntropyPort} {bytes : List Byte}
    (h : readEgd path n q = (some bytes, q')) : bytes.length = n := by
  obtain ⟨q1, hloop, -⟩ := readEgd_eq_some h
  exact egdLoop_length le_rfl (congrArg Prod.fst hloop)

/-- Settles O55: a reply of the OS API is cut to the bytes asked for, and each loop ends when no byte is missing. -/
theorem entropyReadGivesExactlyTheBytesAsked : Obligations.EntropyReadGivesExactlyTheBytesAsked := by
  intro source n q q' bytes h
  cases source with
  | osApi => exact replyExactly_length (congrArg Prod.fst h)
  | egd path => exact readEgd_length h
  | nbDevice path => exact readFile_length h
  | bDevice path => exact readFile_length h

/-! ## The port after listed replies

What a run of requests leaves of the port when their replies are listed: the replies behind them, as many taken, and
their actions at the end of the log. -/

/-- The port after `count` replies have been taken, with `more` still listed and `actions` recorded. -/
def EntropyPort.answered (q : EntropyPort) (count : Nat) (more : List Reply) (actions : List Action) : EntropyPort :=
  { replies := more, taken := q.taken + count, log := q.log ++ actions }

@[simp] theorem EntropyPort.answered_replies (q : EntropyPort) (count : Nat) (more : List Reply)
    (actions : List Action) : (q.answered count more actions).replies = more := rfl

@[simp] theorem EntropyPort.answered_log (q : EntropyPort) (count : Nat) (more : List Reply)
    (actions : List Action) : (q.answered count more actions).log = q.log ++ actions := rfl

@[simp] theorem EntropyPort.note_answered (q : EntropyPort) (a : Action) (count : Nat) (more : List Reply)
    (actions : List Action) : (q.note a).answered count more actions = q.answered count more (a :: actions) := by
  simp [answered]

@[simp] theorem EntropyPort.answered_note (q : EntropyPort) (count : Nat) (more : List Reply)
    (actions : List Action) (a : Action) :
    (q.answered count more actions).note a = q.answered count more (actions ++ [a]) := by
  simp [answered, note]

@[simp] theorem EntropyPort.answered_answered (q : EntropyPort) (m n : Nat) (rs more : List Reply)
    (as actions : List Action) :
    (q.answered m rs as).answered n more actions = q.answered (m + n) more (as ++ actions) := by
  simp [answered, Nat.add_assoc]

theorem EntropyPort.answered_zero {q : EntropyPort} {rs : List Reply} (h : q.replies = rs) :
    q.answered 0 rs [] = q := by
  simp [answered, ← h]

theorem EntropyPort.take_eq_answered {q : EntropyPort} {r : Reply} {more : List Reply} (h : q.replies = r :: more) :
    q.take = (r, q.answered 1 more []) := by
  simp [take_of_listed h, answered]

/-! ## Device reads (R152) -/

/-- The reads a device read asks for as the parts arrive, each for the bytes still missing (R152). -/
def partRequests (need : Nat) (parts : List (List Byte)) : List Action :=
  (List.range parts.length).map fun k => .readFile (need - (parts.take k).flatten.length)

theorem partRequests_nil (need : Nat) : partRequests need [] = [] := rfl

theorem partRequests_cons (need : Nat) (part : List Byte) (parts : List (List Byte)) :
    partRequests need (part :: parts) = .readFile need :: partRequests (need - part.length) parts := by
  simp [partRequests, List.range_succ_eq_map, Nat.sub_sub]

/-- One turn of the loop on a part that is not empty and not longer than what is missing. -/
theorem fileLoop_of_part {turns need : Nat} {q : EntropyPort} {part : List Byte} {more : List Reply}
    (hpart : part ≠ []) (hle : part.length ≤ need) (h : q.replies = .ok part :: more) :
    fileLoop (turns + 1) need q =
      ((fileLoop turns (need - part.length) (q.answered 1 more [.readFile need])).1.map (part ++ ·),
        (fileLoop turns (need - part.length) (q.answered 1 more [.readFile need])).2) := by
  have hpos := List.length_pos_iff.mpr hpart
  have hbytes : replyAtMost need (.ok part) = part := List.take_of_length_le hle
  rw [fileLoop, if_neg (by omega), EntropyPort.take_eq_answered h]
  simp only [hbytes, if_neg hpart, EntropyPort.answered_note, List.nil_append]

/-- One turn of the loop on an empty part or an error. -/
theorem fileLoop_of_bad {turns need : Nat} {q : EntropyPort} {bad : Reply} {more : List Reply}
    (hneed : 0 < need) (hbad : bad = .failed ∨ bad = .ok []) (h : q.replies = bad :: more) :
    fileLoop (turns + 1) need q = (none, q.answered 1 more [.readFile need]) := by
  have hbytes : replyAtMost need bad = [] := by
    obtain rfl | rfl := hbad
    · rfl
    · exact List.take_nil
  rw [fileLoop, if_neg (by omega), EntropyPort.take_eq_answered h]
  simp only [hbytes, if_true, EntropyPort.answered_note, List.nil_append]

theorem fileLoop_of_no_need (turns : Nat) (q : EntropyPort) : fileLoop turns 0 q = (some [], q) := by
  cases turns <;> rfl

/-- The loop collects parts that together are the bytes asked for. -/
theorem fileLoop_of_parts {turns need : Nat} {q : EntropyPort} {parts : List (List Byte)} {more : List Reply}
    (hturns : need ≤ turns) (hparts : ∀ part ∈ parts, part ≠ []) (hlen : parts.flatten.length = need)
    (h : q.replies = parts.map .ok ++ more) :
    fileLoop turns need q = (some parts.flatten, q.answered parts.length more (partRequests need parts)) := by
  induction parts generalizing turns need q with
  | nil =>
    obtain rfl : 0 = need := hlen
    rw [fileLoop_of_no_need, partRequests_nil, List.length_nil, EntropyPort.answered_zero (rs := more) h,
      List.flatten_nil]
  | cons part parts ih =>
    obtain ⟨hpart, hrest⟩ := List.forall_mem_cons.mp hparts
    have hpos := List.length_pos_iff.mpr hpart
    rw [List.flatten_cons, List.length_append] at hlen
    obtain ⟨turns, rfl⟩ := Nat.exists_eq_add_of_le' (show 1 ≤ turns by omega)
    rw [fileLoop_of_part hpart (by omega) h, ih (by omega) hrest (by omega) rfl, partRequests_cons]
    simp [Nat.add_comm]

/-- The loop ends at the first part that is empty or an error, with what was missing then still missing. -/
theorem fileLoop_of_parts_then_bad {turns need : Nat} {q : EntropyPort} {parts : List (List Byte)} {bad : Reply}
    {more : List Reply} (hturns : need ≤ turns) (hparts : ∀ part ∈ parts, part ≠ [])
    (hlen : parts.flatten.length < need) (hbad : bad = .failed ∨ bad = .ok [])
    (h : q.replies = parts.map .ok ++ bad :: more) :
    fileLoop turns need q = (none, q.answered (parts.length + 1) more
      (partRequests need parts ++ [.readFile (need - parts.flatten.length)])) := by
  induction parts generalizing turns need q with
  | nil =>
    obtain ⟨turns, rfl⟩ := Nat.exists_eq_add_of_le' (show 1 ≤ turns by omega)
    exact fileLoop_of_bad hlen hbad h
  | cons part parts ih =>
    obtain ⟨hpart, hrest⟩ := List.forall_mem_cons.mp hparts
    have hpos := List.length_pos_iff.mpr hpart
    rw [List.flatten_cons, List.length_append] at hlen
    obtain ⟨turns, rfl⟩ := Nat.exists_eq_add_of_le' (show 1 ≤ turns by omega)
    rw [fileLoop_of_part hpart (by omega) h, ih (by omega) hrest (by omega) rfl, partRequests_cons]
    simp [Nat.sub_sub, Nat.add_comm 1]

/-- A device read of parts that together are the bytes asked for. -/
theorem readFile_of_parts {path : String} {n : Nat} {q : EntropyPort} {opened : List Byte}
    {parts : List (List Byte)} {more : List Reply} (hparts : ∀ part ∈ parts, part ≠ [])
    (hlen : parts.flatten.length = n) (h : q.replies = .ok opened :: (parts.map .ok ++ more)) :
    readFile path n q = (some parts.flatten, q.answered (1 + parts.length) more
      (.openFile path true :: partRequests n parts ++ [.closeFile path])) := by
  simp [readFile, EntropyPort.take_eq_answered h, fileLoop_of_parts le_rfl hparts hlen]

/-- A device read that meets an empty part or an error before it has all bytes. -/
theorem readFile_of_parts_then_bad {path : String} {n : Nat} {q : EntropyPort} {opened : List Byte}
    {parts : List (List Byte)} {bad : Reply} {more : List Reply} (hparts : ∀ part ∈ parts, part ≠ [])
    (hlen : parts.flatten.length < n) (hbad : bad = .failed ∨ bad = .ok [])
    (h : q.replies = .ok opened :: (parts.map .ok ++ bad :: more)) :
    readFile path n q = (none, q.answered (1 + (parts.length + 1)) more
      (.openFile path true :: (partRequests n parts ++ [.readFile (n - parts.flatten.length)]) ++
        [.closeFile path])) := by
  simp [readFile, EntropyPort.take_eq_answered h, fileLoop_of_parts_then_bad le_rfl hparts hlen hbad]

theorem readFile_of_failed_open {path : String} (n : Nat) {q : EntropyPort} {more : List Reply}
    (h : q.replies = .failed :: more) : readFile path n q = (none, q.answered 1 more [.openFile path false]) := by
  simp [readFile, EntropyPort.take_eq_answered h]

/-- Settles O57, by the three ways a device read goes on listed replies. -/
theorem deviceReadCollectsPartialReads : Obligations.DeviceReadCollectsPartialReads := by
  refine ⟨fun path n q opened parts more hparts hlen h => ?_,
    fun path n q opened parts bad more hparts hlen hbad h => ?_, fun path n q more h => ?_⟩
  · exact ⟨_, readFile_of_parts hparts hlen h, rfl, by simp [partRequests]⟩
  · refine ⟨_, readFile_of_parts_then_bad hparts hlen hbad h, rfl, ?_⟩
    rw [EntropyPort.answered_log, ← List.append_assoc, List.getLast?_concat]
  · exact ⟨_, readFile_of_failed_open n h, rfl, rfl⟩

/-! ## Reads of the OS API and of EGD sockets (R153, R157) -/

theorem readOsApi_of_reply {n : Nat} {q : EntropyPort} {bytes : List Byte} {more : List Reply}
    (hlen : n ≤ bytes.length) (h : q.replies = .ok bytes :: more) :
    readOsApi n q = (some (bytes.take n), q.answered 1 more [.osRequest n]) := by
  simp [readOsApi, EntropyPort.take_eq_answered h, replyExactly, hlen]

theorem egdLoop_of_no_need (turns : Nat) (q : EntropyPort) : egdLoop turns 0 q = (some [], q) := by
  cases turns <;> rfl

theorem chunkSizes_eq_nil_iff {n : Nat} : chunkSizes n = [] ↔ n = 0 := by
  refine ⟨fun h => ?_, fun h => h ▸ rfl⟩
  by_contra hn
  rw [chunkSizes_of_ne_zero hn] at h
  cases h

/-- One turn of the loop on a reply of just the chunk asked for. -/
theorem egdLoop_of_chunk {turns need : Nat} {q : EntropyPort} {part : List Byte} {more : List Reply}
    (hneed : need ≠ 0) (hlen : part.length = min egdChunkMax need) (h : q.replies = .ok part :: more) :
    egdLoop (turns + 1) need q =
      ((egdLoop turns (need - part.length) (q.answered 1 more [chunkRequest part.length])).1.map (part ++ ·),
        (egdLoop turns (need - part.length) (q.answered 1 more [chunkRequest part.length])).2) := by
  have hbytes : replyExactly part.length (.ok part) = some part := by simp [replyExactly]
  rw [egdLoop, if_neg hneed, EntropyPort.take_eq_answered h, ← hlen]
  simp only [hbytes, EntropyPort.answered_note, List.nil_append, chunkRequest]

/-- The loop collects replies that are the chunks of the bytes asked for. -/
theorem egdLoop_of_chunks {turns need : Nat} {q : EntropyPort} {parts : List (List Byte)} {more : List Reply}
    (hturns : need ≤ turns) (hparts : parts.map List.length = chunkSizes need)
    (h : q.replies = parts.map .ok ++ more) :
    egdLoop turns need q =
      (some parts.flatten, q.answered parts.length more (parts.map fun part => chunkRequest part.length)) := by
  induction parts generalizing turns need q with
  | nil =>
    obtain rfl := chunkSizes_eq_nil_iff.mp hparts.symm
    rw [egdLoop_of_no_need, List.map_nil, List.length_nil, EntropyPort.answered_zero (rs := more) h, List.flatten_nil]
  | cons part parts ih =>
    have hneed : need ≠ 0 := fun h0 => List.cons_ne_nil _ _ (hparts.trans (chunkSizes_eq_nil_iff.mpr h0))
    rw [chunkSizes_of_ne_zero hneed] at hparts
    obtain ⟨hpart, hrest⟩ := List.cons.inj hparts
    have hlen : part.length = min 255 need := hpart
    obtain ⟨turns, rfl⟩ := Nat.exists_eq_add_of_le' (show 1 ≤ turns by omega)
    rw [egdLoop_of_chunk hneed hpart h, ih (by omega) (hpart ▸ hrest) rfl]
    simp [Nat.add_comm]

/-- An EGD read whose replies are the chunks of the bytes asked for. -/
theorem readEgd_of_chunks {path : EgdPath} {n : Nat} {q : EntropyPort} {connected : List Byte}
    {parts : List (List Byte)} {more : List Reply} (hparts : parts.map List.length = chunkSizes n)
    (h : q.replies = .ok connected :: (parts.map .ok ++ more)) :
    readEgd path n q = (some parts.flatten, q.answered (1 + parts.length) more
      (.connect path true :: (parts.map fun part => chunkRequest part.length) ++ [.disconnect path])) := by
  simp [readEgd, EntropyPort.take_eq_answered h, egdLoop_of_chunks le_rfl hparts]

end Sys2Proof.Machine
end

section
/-! PROOFS. The probes and the selection of the entropy provider: what the EGD probe makes of listed replies, and which
source each policy selects (spec/42_entropy_provider.md sections 1 and 3, R142 to R147, R156, R159). -/

namespace Sys2Proof.Machine

/-! ## The EGD probe (R156, R159) -/

/-- The actions of a probe on a socket that answers (R87, R156, R159). -/
def probeActions (path : EgdPath) : List Action :=
  [.connect path true, .exchange egdQuery 4, .disconnect path]

/-- Four reply bytes are a count, whatever it is. -/
theorem egdCount_of_full_reply {bytes : List Byte} (h : 4 ≤ bytes.length) :
    ∃ count, (replyExactly 4 (.ok bytes)).bind egdCount = some count := by
  obtain _ | ⟨b0, _ | ⟨b1, _ | ⟨b2, _ | ⟨b3, rest⟩⟩⟩⟩ := bytes
  case cons.cons.cons.cons => exact ⟨u32be b0 b1 b2 b3, by simp [replyExactly, egdCount]⟩
  all_goals simp at h

theorem replyExactly_of_short {n : Nat} {r : Reply} (h : r = .failed ∨ ∃ bytes, r = .ok bytes ∧ bytes.length < n) :
    replyExactly n r = none := by
  obtain rfl | ⟨bytes, rfl, hlen⟩ := h
  · rfl
  · exact if_neg (Nat.not_le.mpr hlen)

theorem probeEgd_of_not_mem {p : Platform} {path : EgdPath} (h : path ∉ p.egdSockets) (paths : List EgdPath)
    (q : EntropyPort) : probeEgd p (path :: paths) q = probeEgd p paths (q.note (.connect path false)) := by
  rw [probeEgd, if_neg h]

theorem probeEgd_of_full_reply {p : Platform} {path : EgdPath} (h : path ∈ p.egdSockets) (paths : List EgdPath)
    {q : EntropyPort} {bytes : List Byte} {more : List Reply} (hlen : 4 ≤ bytes.length)
    (hq : q.replies = .ok bytes :: more) :
    probeEgd p (path :: paths) q = (some path, q.answered 1 more (probeActions path)) := by
  obtain ⟨count, hcount⟩ := egdCount_of_full_reply hlen
  rw [probeEgd, if_pos h, EntropyPort.take_eq_answered (q := q.note _) hq]
  simp [hcount, probeActions]

theorem probeEgd_of_short_reply {p : Platform} {path : EgdPath} (h : path ∈ p.egdSockets) (paths : List EgdPath)
    {q : EntropyPort} {r : Reply} {more : List Reply}
    (hr : r = .failed ∨ ∃ bytes, r = .ok bytes ∧ bytes.length < 4) (hq : q.replies = r :: more) :
    probeEgd p (path :: paths) q = probeEgd p paths (q.answered 1 more (probeActions path)) := by
  rw [probeEgd, if_pos h, EntropyPort.take_eq_answered (q := q.note _) hq]
  simp [replyExactly_of_short hr, probeActions]

/-- Settles O54, by the three things that can become of a path. -/
theorem egdProbeAcceptsAnyFullReply : Obligations.EgdProbeAcceptsAnyFullReply := by
  refine fun p q => ⟨rfl, rfl, fun path paths => ⟨fun h => probeEgd_of_not_mem h paths q, fun h r more hq => ⟨?_, ?_⟩⟩⟩
  · rintro ⟨bytes, rfl, hlen⟩
    exact probeEgd_of_full_reply h paths hlen hq
  · exact fun hr => probeEgd_of_short_reply h paths hr hq

/-- When one socket alone answers, the paths before it fail to connect and it is accepted (R156, D22). -/
theorem probeEgd_of_one_socket {p : Platform} {path : EgdPath} (hp : p.egdSockets = [path]) {paths : List EgdPath}
    (hpath : path ∈ paths) {q : EntropyPort} {count : List Byte} {more : List Reply} (hlen : 4 ≤ count.length)
    (hq : q.replies = .ok count :: more) :
    probeEgd p paths q = (some path, q.answered 1 more
      ((paths.takeWhile fun p => p ≠ path).map (fun p => .connect p false) ++ probeActions path)) := by
  induction paths generalizing q with
  | nil => cases hpath
  | cons first paths ih =>
    by_cases hfirst : first = path
    · subst hfirst
      have hmem : first ∈ p.egdSockets := by simp [hp]
      simp [probeEgd_of_full_reply hmem paths hlen hq]
    · have hmem : first ∉ p.egdSockets := by simp [hp, hfirst]
      have hrest : path ∈ paths := List.mem_of_ne_of_mem (Ne.symm hfirst) hpath
      rw [probeEgd_of_not_mem hmem, ih hrest (q := q.note _) hq]
      simp [hfirst]

theorem mem_egdPaths (path : EgdPath) : path ∈ egdPaths := by
  cases path <;> decide

/-! ## One candidate of a selection (R143, R144) -/

theorem selectFrom_of_blocking {p : Platform} {c : Candidate} (h : c.blocking p = true) (cs : List Candidate)
    (q : EntropyPort) : selectFrom p true (c :: cs) q = selectFrom p true cs q := by
  simp [selectFrom, h]

theorem selectFrom_of_probe_some {p : Platform} {nonblocking : Bool} {c : Candidate}
    (h : (nonblocking && c.blocking p) = false) (cs : List Candidate) {q q' : EntropyPort} {source : Source}
    (hprobe : probe p c q = (some source, q')) : selectFrom p nonblocking (c :: cs) q = (some source, q') := by
  simp [selectFrom, h, hprobe]

theorem selectFrom_of_probe_none {p : Platform} {nonblocking : Bool} {c : Candidate}
    (h : (nonblocking && c.blocking p) = false) (cs : List Candidate) {q q' : EntropyPort}
    (hprobe : probe p c q = (none, q')) :
    selectFrom p nonblocking (c :: cs) q = selectFrom p nonblocking cs q' := by
  simp [selectFrom, h, hprobe]

/-! ## The devices (R142, R143, R147) -/

/-- The two candidates that are devices, in priority order (R142). -/
def deviceCandidates : List Candidate :=
  [.nbDevice, .bDevice]

/-- The port after a device probe that succeeds (R147, R159). -/
def EntropyPort.probed (q : EntropyPort) (path : String) : EntropyPort :=
  (q.note (.openFile path true)).note (.closeFile path)

theorem probeDevice_of_some (source : String → Source) {device : Option String} {path : String}
    (h : device = some path) (q : EntropyPort) : probeDevice source device q = (some (source path), q.probed path) := by
  rw [h]; rfl

theorem probeDevice_of_none (source : String → Source) {device : Option String} (h : device = none)
    (q : EntropyPort) : probeDevice source device q = (none, q) := by
  rw [h]; rfl

/-- The policy lets the blocking device be selected: blocking sources are allowed, or it does not block (R143). -/
def bDeviceAllowed (p : Platform) (nonblocking : Bool) : Prop :=
  nonblocking = true → p.blockingDevIsNonblocking = true

theorem not_skipped_of_bDeviceAllowed {p : Platform} {nonblocking : Bool} (h : bDeviceAllowed p nonblocking) :
    (nonblocking && Candidate.bDevice.blocking p) = false := by
  cases nonblocking with
  | false => rfl
  | true => simp [Candidate.blocking, h rfl]

theorem selectFrom_devices_of_nbDevice {p : Platform} {path : String} (h : p.nbDevicePath = some path)
    (nonblocking : Bool) (q : EntropyPort) :
    selectFrom p nonblocking deviceCandidates q = (some (.nbDevice path), q.probed path) :=
  selectFrom_of_probe_some (Bool.and_false _) _ (probeDevice_of_some _ h q)

theorem selectFrom_devices_without_nbDevice {p : Platform} (h : p.nbDevicePath = none) (nonblocking : Bool)
    (q : EntropyPort) : selectFrom p nonblocking deviceCandidates q = selectFrom p nonblocking [.bDevice] q :=
  selectFrom_of_probe_none (Bool.and_false _) _ (probeDevice_of_none _ h q)

theorem selectFrom_bDevice_of_some {p : Platform} {path : String} (h : p.bDevicePath = some path) {nonblocking : Bool}
    (hallowed : bDeviceAllowed p nonblocking) (q : EntropyPort) :
    selectFrom p nonblocking [.bDevice] q = (some (.bDevice path), q.probed path) :=
  selectFrom_of_probe_some (not_skipped_of_bDeviceAllowed hallowed) _ (probeDevice_of_some _ h q)

theorem selectFrom_bDevice_of_none {p : Platform} (h : p.bDevicePath = none) (nonblocking : Bool) (q : EntropyPort) :
    selectFrom p nonblocking [.bDevice] q = (none, q) := by
  cases hskip : nonblocking && Candidate.bDevice.blocking p with
  | false => exact selectFrom_of_probe_none hskip _ (probeDevice_of_none _ h q)
  | true => simp [selectFrom, hskip]

theorem selectFrom_bDevice_of_blocking {p : Platform} (h : p.blockingDevIsNonblocking = false) (q : EntropyPort) :
    selectFrom p true [.bDevice] q = (none, q) :=
  selectFrom_of_blocking (by simp [Candidate.blocking, h]) _ q

/-! ## The whole selection (R144, R146) -/

theorem selectSource_of_osApi {p : Platform} (h : p.osApiAvailable = true) (nonblocking : Bool) (q : EntropyPort) :
    selectSource p nonblocking q = (some .osApi, q) :=
  selectFrom_of_probe_some (Bool.and_false _) _ (by simp [probe, h])

theorem selectSource_without_osApi {p : Platform} (h : p.osApiAvailable = false) (nonblocking : Bool)
    (q : EntropyPort) : selectSource p nonblocking q = selectFrom p nonblocking (.egd :: deviceCandidates) q :=
  selectFrom_of_probe_none (Bool.and_false _) _ (by simp [probe, h])

/-- When blocking sources are allowed an EGD socket that passes its probe comes before the devices. -/
theorem selectSource_of_egd {p : Platform} (h : p.osApiAvailable = false) {q q' : EntropyPort} {path : EgdPath}
    (hprobe : probeEgd p egdPaths q = (some path, q')) : selectSource p false q = (some (.egd path), q') := by
  rw [selectSource_without_osApi h]
  exact selectFrom_of_probe_some rfl _ (by simp [probe, hprobe])

/-- The devices are left when the policy skips the EGD sockets, or when none of them passes its probe. -/
theorem selectSource_eq_devices {p : Platform} (h : p.osApiAvailable = false) {nonblocking : Bool}
    {q q' : EntropyPort}
    (hegd : (nonblocking = true ∧ q' = q) ∨ (nonblocking = false ∧ probeEgd p egdPaths q = (none, q'))) :
    selectSource p nonblocking q = selectFrom p nonblocking deviceCandidates q' := by
  rw [selectSource_without_osApi h]
  obtain ⟨rfl, rfl⟩ | ⟨rfl, hprobe⟩ := hegd
  · exact selectFrom_of_blocking rfl _ _
  · exact selectFrom_of_probe_none rfl _ (by simp [probe, hprobe])

/-- The device a policy selects, and the port after its probe. -/
theorem selectFrom_devices_of_path {p : Platform} {path : String} {nonblocking : Bool}
    (h : p.nbDevicePath = some path ∨
      (p.nbDevicePath = none ∧ p.bDevicePath = some path ∧ bDeviceAllowed p nonblocking)) (q : EntropyPort) :
    ∃ source, (source = .nbDevice path ∨ source = .bDevice path) ∧
      selectFrom p nonblocking deviceCandidates q = (some source, q.probed path) := by
  obtain hnb | ⟨hnb, hb, hallowed⟩ := h
  · exact ⟨_, .inl rfl, selectFrom_devices_of_nbDevice hnb nonblocking q⟩
  · exact ⟨_, .inr rfl,
      (selectFrom_devices_without_nbDevice hnb nonblocking q).trans (selectFrom_bDevice_of_some hb hallowed q)⟩

/-- Settles O53: the OS API, then the EGD sockets unless skipped, then the devices. -/
theorem selectionFollowsThePriorityOrder : Obligations.SelectionFollowsThePriorityOrder := by
  refine fun p q => ⟨fun h nonblocking => selectSource_of_osApi h nonblocking q, fun h => ⟨?nonblocking, ?blocking⟩⟩
  case nonblocking =>
    rw [selectSource_eq_devices h (.inl ⟨rfl, rfl⟩)]
    cases hnb : p.nbDevicePath with
    | some path => rw [selectFrom_devices_of_nbDevice hnb]
    | none =>
      rw [selectFrom_devices_without_nbDevice hnb]
      cases hb : p.bDevicePath with
      | none => rw [selectFrom_bDevice_of_none hb]
      | some path =>
        cases hblocks : p.blockingDevIsNonblocking with
        | false => rw [selectFrom_bDevice_of_blocking hblocks]
        | true => rw [selectFrom_bDevice_of_some hb fun _ => hblocks]
  case blocking =>
    cases hprobe : probeEgd p egdPaths q with
    | mk accepted q' =>
      cases accepted with
      | some path => rw [selectSource_of_egd h hprobe]
      | none =>
        rw [selectSource_eq_devices h (.inr ⟨rfl, hprobe⟩)]
        cases hnb : p.nbDevicePath with
        | some path => rw [selectFrom_devices_of_nbDevice hnb]
        | none =>
          rw [selectFrom_devices_without_nbDevice hnb]
          cases hb : p.bDevicePath with
          | none => rw [selectFrom_bDevice_of_none hb]
          | some path => rw [selectFrom_bDevice_of_some hb fun hno => by cases hno]

end Sys2Proof.Machine
end

section
/-! PROOFS. CONSTRUCT and the entropy provider: the words it provides, how CONSTRUCT ends for each of its answers, and the
seeding from each kind of source (spec/42_entropy_provider.md section 2, R151, R155; spec/43_facade_output.md section 1,
R171, R173; spec/70_reset_and_hazards.md section 1, R242). -/

namespace Sys2Proof.Machine

/-! ## The words of a read (R53, R151) -/

theorem seedWords_succ (n : Nat) (b0 b1 b2 b3 : Byte) (rest : List Byte) :
    seedWords (n + 1) (b0 :: b1 :: b2 :: b3 :: rest) = u32le b0 b1 b2 b3 :: seedWords n rest := by
  simp [seedWords, List.range_succ_eq_map, Nat.mul_add]

@[simp] theorem seedWords_length (n : Nat) (bytes : List Byte) : (seedWords n bytes).length = n := by
  simp [seedWords]

theorem seedWords_getD {n t : Nat} (h : t < n) (bytes : List Byte) :
    (seedWords n bytes).getD t 0 =
      u32le (bytes.getD (4 * t) 0) (bytes.getD (4 * t + 1) 0) (bytes.getD (4 * t + 2) 0)
        (bytes.getD (4 * t + 3) 0) := by
  simp [seedWords, h]

/-- The provider's decoding of the first `4n` bytes is the little-endian words of the statements. -/
theorem seedWordsOfBytes_take {n : Nat} {bytes : List Byte} (h : 4 * n ≤ bytes.length) :
    seedWordsOfBytes (bytes.take (4 * n)) = seedWords n bytes := by
  induction n generalizing bytes with
  | zero => rfl
  | succ n ih =>
    obtain _ | ⟨b0, _ | ⟨b1, _ | ⟨b2, _ | ⟨b3, rest⟩⟩⟩⟩ := bytes
    case cons.cons.cons.cons =>
      have hrest : 4 * n ≤ rest.length := by simp only [List.length_cons] at h; omega
      rw [seedWords_succ, ← ih hrest, Nat.mul_add]
      rfl
    all_goals simp only [List.length_cons, List.length_nil] at h; omega

theorem seedWordsOfBytes_eq {n : Nat} {bytes : List Byte} (h : bytes.length = 4 * n) :
    seedWordsOfBytes bytes = seedWords n bytes := by
  rw [← seedWordsOfBytes_take h.ge, List.take_of_length_le h.le]

theorem seedWords_take (n : Nat) (bytes : List Byte) (h : 4 * n ≤ bytes.length) :
    seedWords n (bytes.take (4 * n)) = seedWords n bytes := by
  rw [← seedWordsOfBytes_take h, seedWordsOfBytes_eq (List.length_take_of_le h)]

/-! ## What the provider answers (R141, R144, R155) -/

section Provide

variable {p : Platform} {nonblocking : Bool} {n : Nat} {q q1 q2 : EntropyPort} {source : Source} {bytes : List Byte}

theorem provide_of_no_source (hsel : selectSource p nonblocking q = (none, q1)) :
    provide p nonblocking n q = (.noSource, q1) := by
  simp [provide, hsel]

theorem provide_of_failed_read (hsel : selectSource p nonblocking q = (some source, q1))
    (hread : entropyRead source n q1 = (none, q2)) : provide p nonblocking n q = (.readError, q2) := by
  simp [provide, hsel, hread]

theorem provide_of_read (hsel : selectSource p nonblocking q = (some source, q1))
    (hread : entropyRead source n q1 = (some bytes, q2)) :
    provide p nonblocking n q = (.words (seedWordsOfBytes bytes), q2) := by
  simp [provide, hsel, hread]

/-- The provider answers words only after a selection and a read that succeed. -/
theorem provide_eq_words {words : List Word} (h : provide p nonblocking n q = (.words words, q2)) :
    ∃ source q1 bytes, selectSource p nonblocking q = (some source, q1) ∧
      entropyRead source n q1 = (some bytes, q2) ∧ words = seedWordsOfBytes bytes := by
  cases hsel : selectSource p nonblocking q with
  | mk selected q1 =>
    cases selected with
    | none => simp [provide_of_no_source hsel] at h
    | some source =>
      cases hread : entropyRead source n q1 with
      | mk collected q3 =>
        cases collected with
        | none => simp [provide_of_failed_read hsel hread] at h
        | some bytes =>
          obtain ⟨hwords, rfl⟩ := Prod.mk.inj ((provide_of_read hsel hread).symm.trans h)
          exact ⟨source, q1, bytes, rfl, hread, (Provided.words.inj hwords).symm⟩

end Provide

/-- Settles O58: a read gives exactly the bytes asked for, and they are decoded four at a time. -/
theorem providedWordsAreTheLittleEndianWordsRead : Obligations.ProvidedWordsAreTheLittleEndianWordsRead := by
  intro p nonblocking n q q' words h
  obtain ⟨source, q1, bytes, hsel, hread, rfl⟩ := provide_eq_words h
  have hlen := entropyReadGivesExactlyTheBytesAsked source (4 * n) q1 q' bytes hread
  rw [seedWordsOfBytes_eq hlen]
  exact ⟨source, q1, bytes, hsel, hread, hlen, seedWords_length n bytes, fun t ht => seedWords_getD ht bytes⟩

/-! ## How CONSTRUCT ends (R171, R173) -/

/-- For legal `bits` the bytes read are an eighth of them (R173). -/
theorem seedByteCount_of_legal {bits : Int} (h : bits ∈ legalBits) : seedByteCount bits = bits.toNat / 8 := by
  revert bits
  decide

section Construct

variable {s : State} {bits : Option Word} {nonblocking : Option Bool} {source : Source} {q q' : EntropyPort}

theorem exec_construct_of_legal (h : bitsOperand bits ∈ legalBits) :
    exec (.construct bits nonblocking) s = .next (s.constructed (bitsOperand bits)
      (provide s.platform (nonblockingOperand nonblocking) ((bitsOperand bits).toNat / 8) s.entropy)) := by
  rw [exec_construct_of_valid nonblocking s ((validBits_iff_mem_legalBits _).mpr h), seedByteCount_of_legal h]

theorem exec_construct_of_no_source (h : bitsOperand bits ∈ legalBits)
    (hsel : selectSource s.platform (nonblockingOperand nonblocking) s.entropy = (none, q)) :
    exec (.construct bits nonblocking) s = .next { s with resp := s.resp ++ [0x02], entropy := q } := by
  rw [exec_construct_of_legal h, provide_of_no_source hsel]
  rfl

theorem exec_construct_of_failed_read (h : bitsOperand bits ∈ legalBits)
    (hsel : selectSource s.platform (nonblockingOperand nonblocking) s.entropy = (some source, q))
    (hread : entropyRead source ((bitsOperand bits).toNat / 8) q = (none, q')) :
    exec (.construct bits nonblocking) s = .next { s with resp := s.resp ++ [0x03], entropy := q' } := by
  rw [exec_construct_of_legal h, provide_of_failed_read hsel hread]
  rfl

/-- A CONSTRUCT whose read succeeds seeds the engine with the words of the bytes (R171). -/
theorem exec_construct_of_read (h : bitsOperand bits ∈ legalBits)
    (hsel : selectSource s.platform (nonblockingOperand nonblocking) s.entropy = (some source, q)) {bytes : List Byte}
    (hread : entropyRead source ((bitsOperand bits).toNat / 8) q = (some bytes, q')) :
    exec (.construct bits nonblocking) s = .next { s with
      engine := s.engine.seeded (seedWords ((bitsOperand bits).toNat / 32) bytes),
      phase := .ready,
      cfgBits := bitsOperand bits,
      resp := s.resp ++ [0x00],
      entropy := q' } := by
  have hlen : bytes.length = 4 * ((bitsOperand bits).toNat / 32) :=
    (entropyReadGivesExactlyTheBytesAsked _ _ _ _ _ hread).trans (seedByteCount_of_legal h).symm
  rw [exec_construct_of_legal h, provide_of_read hsel hread, seedWordsOfBytes_eq hlen, State.constructed,
    State.finish_nil_eq]

end Construct

/-- Settles O52, by the two errors of the provider. -/
theorem constructReportsProviderErrors : Obligations.ConstructReportsProviderErrors :=
  fun _ _ _ hbits => ⟨fun _ => exec_construct_of_no_source hbits, fun _ _ _ => exec_construct_of_failed_read hbits⟩

/-! ## Seeding from each kind of source -/

/-- Settles O49: the OS API is selected without a probe's action, and read with one request. -/
theorem constructSeedsFromTheOsApi : Obligations.ConstructSeedsFromTheOsApi := by
  intro s bits nonblocking bytes more hbits hos hq hlen
  have hbytes : (bitsOperand bits).toNat / 8 = 4 * ((bitsOperand bits).toNat / 32) :=
    (seedByteCount_of_legal hbits).symm
  rw [exec_construct_of_read hbits (selectSource_of_osApi hos _ _) (readOsApi_of_reply hlen hq), hbytes,
    seedWords_take _ _ (hbytes ▸ hlen)]
  rfl

/-- A source that is a device is read by the file read protocol (R152). -/
theorem entropyRead_of_device {source : Source} {path : String}
    (h : source = .nbDevice path ∨ source = .bDevice path) (n : Nat) (q : EntropyPort) :
    entropyRead source n q = readFile path n q := by
  obtain rfl | rfl := h <;> rfl

/-- Settles O50: the devices are what the selection comes to, the first that the policy allows is probed, and the read
collects its parts. -/
theorem constructSeedsFromADevice : Obligations.ConstructSeedsFromADevice := by
  intro s bits nonblocking path probed opened parts more hbits hos hpolicy hparts hlen hq
  obtain ⟨source, hsource, hsel⟩ : ∃ source, (source = .nbDevice path ∨ source = .bDevice path) ∧
      selectSource s.platform (nonblockingOperand nonblocking) s.entropy = (some source, probed.probed path) := by
    obtain ⟨hnb, rfl, hpath⟩ | ⟨hnb, hprobe, hpath⟩ := hpolicy
    · rw [selectSource_eq_devices hos (.inl ⟨hnb, rfl⟩)]
      exact selectFrom_devices_of_path (hpath.imp_right fun ⟨hno, hb, hdev⟩ => ⟨hno, hb, fun _ => hdev⟩) _
    · rw [selectSource_eq_devices hos (.inr ⟨hnb, hprobe⟩)]
      exact selectFrom_devices_of_path
        (hpath.imp_right fun ⟨hno, hb⟩ => ⟨hno, hb, fun h => by simp [hnb] at h⟩) _
  have hread := (entropyRead_of_device hsource _ _).trans
    (readFile_of_parts (path := path) (q := probed.probed path) hparts hlen hq)
  rw [exec_construct_of_read hbits hsel hread]
  simp [EntropyPort.answered, EntropyPort.probed, partRequests, Nat.add_assoc]

/-- Settles O51: the one socket is accepted by its probe, connected again, and read chunk by chunk. -/
theorem constructSeedsFromAnEgdSocket : Obligations.ConstructSeedsFromAnEgdSocket := by
  intro s bits path count connected parts more hbits hos hsockets hcount hparts hq
  have hprobe := probeEgd_of_one_socket hsockets (mem_egdPaths path) hcount hq
  have hsel : selectSource s.platform (nonblockingOperand (some false)) s.entropy = _ :=
    selectSource_of_egd hos hprobe
  have hread := fun actions => readEgd_of_chunks (path := path) hparts
    (s.entropy.answered_replies 1 (.ok connected :: (parts.map .ok ++ more)) actions)
  rw [exec_construct_of_read hbits hsel (hread _)]
  simp [EntropyPort.answered, probeActions, chunkRequest, egdRequest, egdQuery, ← Nat.add_assoc]

/-! ## After a seeding (R242) -/

/-- A SEED that answers `OK` had at most 256 words and has seeded the engine. -/
theorem exec_seed_ok {words : List Word} {s t : State} (h : exec (.seed words) s = .next t)
    (hok : t.resp = s.resp ++ [0x00]) :
    t = ({ s with phase := .ready } : State).finish (s.engine.seeded words) [] := by
  obtain ⟨-, he⟩ | ⟨-, he⟩ := execSeed_cases words s <;>
    obtain rfl := Host.Outcome.next.inj (h.symm.trans he)
  · exact absurd hok (State.raise_resp_ne_ok (by decide))
  · rfl

/-- A CONSTRUCT that answers `OK` had legal `bits` and has seeded the engine with the provider's words. -/
theorem exec_construct_ok {bits : Option Word} {nonblocking : Option Bool} {s t : State}
    (h : exec (.construct bits nonblocking) s = .next t) (hok : t.resp = s.resp ++ [0x00]) :
    bitsOperand bits ∈ legalBits ∧ ∃ words q,
      provide s.platform (nonblockingOperand nonblocking) (seedByteCount (bitsOperand bits)) s.entropy =
        (.words words, q) ∧
      t = s.constructed (bitsOperand bits) (.words words, q) := by
  obtain ⟨-, he⟩ | ⟨hvalid, answer, q, hprovide, he⟩ := execConstruct_cases bits nonblocking s <;>
    obtain rfl := Host.Outcome.next.inj (h.symm.trans he)
  · exact absurd hok (State.raise_resp_ne_ok (by decide))
  · refine ⟨(validBits_iff_mem_legalBits _).mp hvalid, ?_⟩
    cases answer with
    | words words => exact ⟨words, q, hprovide, rfl⟩
    | noSource => exact absurd hok (State.raise_resp_ne_ok (s := { s with entropy := q }) (by decide))
    | readError => exact absurd hok (State.raise_resp_ne_ok (s := { s with entropy := q }) (by decide))

/-- Settles O26: both commands end with a seeded engine, and the provider's words are as many as were asked for. -/
theorem stateAfterSeeding : Obligations.StateAfterSeeding := by
  refine ⟨fun words s t h hok => ?seed, fun bits nonblocking s t h hok => ?construct⟩
  case seed =>
    obtain rfl := exec_seed_ok h hok
    exact ⟨Engine.seeded_rc _ _, Engine.seeded_cnt _ _, rfl, rfl, rfl⟩
  case construct =>
    obtain ⟨hlegal, words, q, hprovide, rfl⟩ := exec_construct_ok h hok
    obtain ⟨-, -, -, -, -, -, hlen, -⟩ := providedWordsAreTheLittleEndianWordsRead _ _ _ _ _ _ hprovide
    exact ⟨Engine.seeded_rc _ _, Engine.seeded_cnt _ _, rfl, rfl, hlegal, words, hprovide, hlen, rfl⟩

/-! ## Handles (R159) -/

/-- Settles O59: probes, reads and the whole of the provider's part in a CONSTRUCT release what they open, and no other
command touches the port. -/
theorem noHandleOutlivesACommand : Obligations.NoHandleOutlivesACommand := by
  refine ⟨probe_heldHandles, entropyRead_heldHandles, fun i s t h => ?_⟩
  cases hi : usesProvider i with
  | false =>
    obtain ⟨f, rfl, -⟩ := exec_eq_effect hi h
    rfl
  | true =>
    obtain ⟨bits, nonblocking, rfl⟩ := construct_of_usesProvider hi
    obtain ⟨q, hq, ⟨st, -, rfl⟩ | ⟨-, words, rfl⟩⟩ := exec_construct_cases h <;> exact hq

end Sys2Proof.Machine
end
